-- ==== Sys2Proof/Word.lean ====
section
/-! DEFINITION. The word types of the register window: a register access moves 32 bits
(20_memory.md R70), a data block is one byte (00_scope.md R7). -/

namespace Sys2Proof

/-- A host register value and a command word: 32 bits (00_scope.md R9, 30_encoding.md R100). -/
abbrev Word := BitVec 32

/-- A data block, and a packed byte: 8 bits (00_scope.md R7, K = 8). -/
abbrev Byte := BitVec 8

end Sys2Proof
end

