-- ==== Sys2Proof/Config.lean ====
section
/-! DEFINITION. What an implementation of the core fixes: the two code variants and their sizes, the
names of the command errors, and the parameters the spec leaves OPEN (92_eei_decisions.md D2, D3),
which are constants without a body, so that no proof can see their values. -/

namespace Sys2Proof

/-- The code variant V: V = 0 selects SEC, V = 1 selects DEC (00_scope.md R2). -/
inductive Variant where
  | sec
  | dec
  deriving DecidableEq, Repr

/-- R(V), the number of parity bits (00_scope.md R7). -/
@[reducible] def Variant.parity : Variant → Nat
  | .sec => 4
  | .dec => 8

/-- N(V) = 8 + R(V), the width of a code word (00_scope.md R7). -/
abbrev Variant.width (v : Variant) : Nat := 8 + v.parity

/-- The bit that stands for V in a command word, in STATUS.VLAST and in LOC.LV (R2, R38, R41). -/
def Variant.bit : Variant → Bool
  | .sec => false
  | .dec => true

/-- The causes of a command error (60_exceptions.md R221). None of them stops the core (R224). -/
inductive CmdError where
  /-- Reserved OP value 0xC to 0xF (30_encoding.md R107). -/
  | illop
  /-- A reserved bit of [31:5] set in a word with a legal OP (30_encoding.md R104). -/
  | rsvd
  /-- UPUSH with more than 16 bits queued (41_stream.md R185). -/
  | upovf
  /-- UPULL with an empty queue (41_stream.md R186). -/
  | upempty
  deriving DecidableEq, Repr

/-- An r-by-n matrix over GF(2) as its r rows of n entries: `H[i][j]` is row i, column j, the row
index first (00_scope.md R15, 90_conflicts.md C8). -/
abbrev GfMatrix (r n : Nat) := Vector (Vector Bool n) r

/-- The two parity-check matrices (40_codec.md R130). Every codec function takes them as an argument
(00_scope.md R8). -/
structure Matrices where
  /-- H_SEC, 4 by 12. -/
  sec : GfMatrix 4 12
  /-- H_DEC, 8 by 16. -/
  dec : GfMatrix 8 16
  deriving DecidableEq, Repr, Inhabited

/-- H_V, the matrix a variant selects (30_encoding.md R103). -/
def Matrices.of (H : Matrices) : (v : Variant) → GfMatrix v.parity v.width
  | .sec => H.sec
  | .dec => H.dec

/-- H_SEC of this core. DESIGN CHOICE, safe: its entries are OPEN (R8, D2), so it has no body and
nothing can be proved of an entry (log entry 1). -/
opaque Config.hSec : GfMatrix 4 12

/-- H_DEC of this core. DESIGN CHOICE, safe: as for `Config.hSec` (log entry 1). -/
opaque Config.hDec : GfMatrix 8 16

/-- The matrices the core's commands use: read-only tables, not state (10_state.md R49). -/
def Config.matrices : Matrices := ⟨Config.hSec, Config.hDec⟩

/-- CORE_BASE divided by 256. DESIGN CHOICE, safe: where the window sits is OPEN (20_memory.md R87),
so it has no body (log entry 11). -/
opaque Config.corePage : Nat

/-- CORE_BASE, the window's base in the host's address map, 256-byte aligned (20_memory.md R87). -/
def Config.coreBase : Nat := 256 * Config.corePage

end Sys2Proof
end

