-- ==== Sys2Proof/Syntax.lean ====
section
/-! DEFINITION. The twelve commands of the core, one constructor per row of spec/opcode_table.json.
Every operand is implicit (30_encoding.md R105). A command carries its variant exactly where V is
used (R103); elsewhere V is neither checked nor recorded and the constructor has none (DEDUCED, safe,
log entry 9). -/

namespace Sys2Proof

/-- A command (30_encoding.md R102). -/
inductive Instr where
  /-- OP 0x0: no operation (40_codec.md R150). -/
  | nop
  /-- OP 0x1: encode DATA into CW (40_codec.md R151). -/
  | enc (v : Variant)
  /-- OP 0x2: syndrome of CW into SYN (40_codec.md R152). -/
  | synd (v : Variant)
  /-- OP 0x3: resolve SYN to positions in LOC (40_codec.md R153). -/
  | locate (v : Variant)
  /-- OP 0x4: apply LOC to CW (40_codec.md R154). -/
  | correct
  /-- OP 0x5: full decode of CW into DATA (40_codec.md R155). -/
  | decode (v : Variant)
  /-- OP 0x6: append the code word in CW to the packer (41_stream.md R182). -/
  | packcw (v : Variant)
  /-- OP 0x7: append the data block in DATA to the packer (41_stream.md R183). -/
  | packdata
  /-- OP 0x8: pad the packer residue to a byte (41_stream.md R184). -/
  | flush
  /-- OP 0x9: push the byte in DATA into the unpacker (41_stream.md R185). -/
  | upush
  /-- OP 0xA: pull a code word from the unpacker into CW (41_stream.md R186). -/
  | upull (v : Variant)
  /-- OP 0xB: clear the stream state (41_stream.md R187). -/
  | sclr
  deriving DecidableEq, Repr

end Sys2Proof
end

