-- ==== Sys2Proof/WellFormed.lean ====
section
/-! DEFINITION. Well-formedness. Every term of `Instr` is a command of the table: no command names a
register or carries an immediate (30_encoding.md R105, R106), so no operand can be out of range. What
can be ill-formed is a command WORD, by a reserved OP (R107) or a reserved bit (R104). -/

namespace Sys2Proof

/-- Every instruction is well-formed: all operands are implicit (30_encoding.md R105). -/
def Instr.wellFormed : Instr → Bool
  | .nop | .enc _ | .synd _ | .locate _ | .correct | .decode _ | .packcw _ | .packdata | .flush
  | .upush | .upull _ | .sclr => true

/-- First check on a command word: OP, bits [3:0], is not one of the reserved 0xC to 0xF
(30_encoding.md R107). -/
def wordOpDefined (w : Word) : Bool := w.toNat % 16 < 12

/-- Second check: the reserved bits [31:5] are all 0 (30_encoding.md R104). -/
def wordReservedClear (w : Word) : Bool := w.toNat / 32 == 0

/-- A command word that is one of the twelve commands (30_encoding.md R109). -/
def wordWellFormed (w : Word) : Bool := wordOpDefined w && wordReservedClear w

end Sys2Proof
end

