-- ==== Sys2Proof/Decode.lean ====
section
/-! DEFINITION. The decoder of command words, total on every 32-bit word (30_encoding.md R109) and
rejecting by the name of the error the word raises, and the encoder. -/

namespace Sys2Proof

/-- Field OP, bits [3:0] (30_encoding.md R101). -/
def opField (w : Word) : BitVec 4 := w.extractLsb' 0 4

/-- Field V, bit [4]: 0 is SEC, 1 is DEC (30_encoding.md R101). -/
def variantField (w : Word) : Variant := if w.getLsbD 4 then .dec else .sec

/-- Field RSV, bits [31:5] (30_encoding.md R101). -/
def reservedField (w : Word) : BitVec 27 := w.extractLsb' 5 27

/-- The dispatch of a command word (30_encoding.md R110): a reserved OP is checked first, then the
reserved bits, then OP selects the command. The last arm is never reached: the first check took it. -/
def decode (w : Word) : Except CmdError Instr :=
  if 0xC ≤ (opField w).toNat then .error .illop
  else if reservedField w ≠ 0 then .error .rsvd
  else
    match (opField w).toNat with
    | 0x0 => .ok .nop
    | 0x1 => .ok (.enc (variantField w))
    | 0x2 => .ok (.synd (variantField w))
    | 0x3 => .ok (.locate (variantField w))
    | 0x4 => .ok .correct
    | 0x5 => .ok (.decode (variantField w))
    | 0x6 => .ok (.packcw (variantField w))
    | 0x7 => .ok .packdata
    | 0x8 => .ok .flush
    | 0x9 => .ok .upush
    | 0xA => .ok (.upull (variantField w))
    | 0xB => .ok .sclr
    | _ => .error .illop

/-- The OP value of a command (30_encoding.md R102). -/
def opOf : Instr → BitVec 4
  | .nop => 0x0
  | .enc _ => 0x1
  | .synd _ => 0x2
  | .locate _ => 0x3
  | .correct => 0x4
  | .decode _ => 0x5
  | .packcw _ => 0x6
  | .packdata => 0x7
  | .flush => 0x8
  | .upush => 0x9
  | .upull _ => 0xA
  | .sclr => 0xB

/-- The variant of a command that has one (30_encoding.md R103). -/
def variantOf : Instr → Option Variant
  | .enc v | .synd v | .locate v | .decode v | .packcw v | .upull v => some v
  | .nop | .correct | .packdata | .flush | .upush | .sclr => none

/-- The command word of a command: RSV = 0, V its variant, or 0 where it has none as the assembler
sets it (30_encoding.md R111), and OP (R102). -/
def encode (i : Instr) : Word :=
  0#27 ++ BitVec.ofBool (((variantOf i).getD .sec).bit) ++ opOf i

/-- Bit 4 set: the second word of a command that ignores V (30_encoding.md R103). -/
def variantBitMask : Word := 0x10

/-- The command word that an opcode-table row of `nbits` bits with value `w` stands for; the bits above
`nbits` are 0. A command word has one length, 32 bits (30_encoding.md R100). -/
def tableWord (nbits w : Nat) : Word := BitVec.ofNat 32 (w % 2 ^ nbits)

/-- The command the decoder reads from an opcode-table word; none where it refuses the word, or where
the row would be longer than a command (log entry 10). -/
def decodeTableWord (nbits w : Nat) : Option Instr :=
  if nbits ≤ 32 then
    match decode (tableWord nbits w) with
    | .ok i => some i
    | .error _ => none
  else none

end Sys2Proof
end

