-- ==== Sys2Proof/Machine/State.lean ====
section
/-! DEFINITION. The architectural state of the core (10_state.md R31), the host agent that drives it
(R30, R33), the ways a step can stop, and the state after reset (70_reset_and_hazards.md R250). Plain
data throughout. -/

namespace Sys2Proof.Machine

/-- A locator result (10_state.md R39, R40): none, one SEC position, or a pair of DEC positions. -/
inductive Locator where
  | none
  | single (a : Fin 12)
  | pair (a b : Fin 16)
  deriving DecidableEq, Repr

/-- LOC: the last locator result and the variant it was computed for (10_state.md R38). Its reserved
bits read 0 and nothing writes them, so they are not stored (DEDUCED, safe, log entry 7). -/
structure LocReg where
  /-- KIND, POSA and POSB. -/
  result : Locator
  /-- LV. -/
  lv : Variant
  deriving DecidableEq, Repr

/-- STATUS (10_state.md R41). Its reserved bits read 0 and nothing writes them. -/
structure Status where
  /-- [0] the last syndrome written by SYND or DECODE was nonzero. -/
  synnz : Bool
  /-- [1] the last CORRECT or DECODE flipped a bit. -/
  corr : Bool
  /-- [2] the last LOCATE or DECODE saw a nonzero syndrome and found no match. -/
  uncorr : Bool
  /-- [3] the last UPULL zero-padded the word. -/
  pad : Bool
  /-- [4] variant of the last command that has one. -/
  vlast : Variant
  /-- [8] a command error has occurred since it was last cleared (sticky). -/
  err : Bool
  /-- [11:9] code of the first error since ERR was last cleared. -/
  errcode : BitVec 3
  /-- [15:12] OP of the last command that executed without error. -/
  lastop : BitVec 4
  deriving DecidableEq, Repr

/-- PKOUT: the bytes the last pack command completed (10_state.md R45). -/
structure PkOut where
  /-- [7:0] first completed byte, in stream order. -/
  b0 : Byte
  /-- [15:8] second completed byte. -/
  b1 : Byte
  /-- [17:16] number of completed bytes. -/
  nout : BitVec 2
  deriving DecidableEq, Repr

/-- What the host side does next (10_state.md R30, 20_memory.md R70, R71): an access of `bytes` bytes
at offset `off` of the window, or the platform's RESET between two accesses
(70_reset_and_hazards.md R251). Only a 32-bit access is ever accepted, so the value written is a word;
what a refused access of another width would have carried is not recorded (log entry 4). -/
inductive HostEvent where
  | write (bytes off : Nat) (value : Word)
  | read (bytes off : Nat)
  | reset
  deriving DecidableEq, Repr

/-- The state: the core's registers and queues, and the host agent. -/
structure State where
  /-- STATUS, offset 0x04 (10_state.md R41). -/
  status : Status
  /-- DATA, offset 0x08 (10_state.md R34). -/
  data : BitVec 8
  /-- CW, offset 0x0C (10_state.md R35). -/
  cw : BitVec 16
  /-- SYN, offset 0x10 (10_state.md R37). -/
  syn : BitVec 8
  /-- LOC, offset 0x14 (10_state.md R38). -/
  loc : LocReg
  /-- PKOUT, offset 0x18 (10_state.md R45). -/
  pkout : PkOut
  /-- PQ, the packer residue, oldest bit first (10_state.md R46). -/
  pq : List Bool
  /-- UQ, the unpacker queue, oldest bit first (10_state.md R47). -/
  uq : List Bool
  /-- HOST AGENT: what the host side has still to do, next first (R33, R82; DESIGN CHOICE, safe, log
  entry 2). -/
  pending : List HostEvent
  /-- HOST AGENT: the values its reads returned, oldest first (R70; DESIGN CHOICE, safe, log entry 2). -/
  reads : List Word
  /-- RECORD: every command error raised, oldest first, never cleared (60_exceptions.md R224, D9;
  DESIGN CHOICE, safe, log entry 5). No command, no access and no reset reads it. -/
  errLog : List CmdError
  deriving DecidableEq, Repr

/-- How a step can stop. -/
inductive Fault where
  /-- Raised by the bus for an access that is not 32-bit, not aligned or not inside the window: it is
  refused, has no step, and the host is stuck (20_memory.md R71). SAFE: claims about a run past it
  are lost, none becomes provable (D5, log entry 4). -/
  | unsupportedAccess
  deriving DecidableEq, Repr

/-- Why an instruction has no meaning. -/
inductive Refusal where
  /-- Raised by `exec` for a command without a meaning. SAFE. No arm of this model raises it. -/
  | notModelled (mnemonic : String)
  deriving DecidableEq, Repr

/-- STATUS after reset: 0x0000_0000 (70_reset_and_hazards.md R250). -/
def Status.reset : Status :=
  { synnz := false, corr := false, uncorr := false, pad := false, vlast := .sec
    err := false, errcode := 0, lastop := 0 }

/-- PKOUT after reset, and after SCLR: 0 (70_reset_and_hazards.md R250, 41_stream.md R187). -/
def PkOut.zero : PkOut := { b0 := 0, b1 := 0, nout := 0 }

/-- The state after reset (70_reset_and_hazards.md R250); the model's own three fields are empty
(DESIGN CHOICE, log entries 2 and 5). -/
def State.reset : State :=
  { status := .reset, data := 0, cw := 0, syn := 0
    loc := { result := .none, lv := .sec }
    pkout := .zero, pq := [], uq := []
    pending := [], reads := [], errLog := [] }

end Sys2Proof.Machine
end

