-- ==== Sys2Proof/Machine/Gf2.lean ====
section
/-! DEFINITION. The codec as pure functions of the matrices (40_codec.md §1 to §3): bit vectors and their
values, columns, encode, syndrome, locators, correction, decode, and the predicates on the matrices
that condition the correction guarantees. -/

namespace Sys2Proof.Machine

/-- `val(s)`: the value of a bit sequence, position 0 the most significant (00_scope.md R11, R14). -/
def val (s : List Bool) : Nat := s.foldl (fun a b => 2 * a + b.toNat) 0

/-- `bits_L(x)`: the bits of an L-bit value in position order, position p being register bit L-1-p
(00_scope.md R11). -/
def bits {L : Nat} (x : BitVec L) : List Bool := (List.range L).map x.getMsbD

/-- `zeros(k)`: k zero bits (00_scope.md R14). -/
def zeros (k : Nat) : List Bool := List.replicate k false

/-- `H[i][j]`: row i, column j (00_scope.md R15). There is no entry outside the matrix; none is ever
asked for, and the read is then false. -/
def entry {r n : Nat} (H : GfMatrix r n) (i j : Nat) : Bool :=
  if h : i < r ∧ j < n then H[i][j] else false

/-- `col_V(j)`: column j as an r-bit value, row 0 the most significant bit (00_scope.md R15). -/
def col {r n : Nat} (H : GfMatrix r n) (j : Nat) : BitVec r :=
  BitVec.ofNat r (val ((List.range r).map fun i => entry H i j))

/-- The loop that encode and syndrome share (40_codec.md R133, R134): starting from 0, for each
position j of x in increasing order, XOR column j in where x[j] = 1. -/
def sumColumns {r n k : Nat} (H : GfMatrix r n) (x : BitVec k) : BitVec r :=
  (List.range k).foldl (fun S j => if x.getMsbD j then S ^^^ col H j else S) 0

/-- `enc_V(d)`: the data bits unchanged in positions 0 to 7, then the parity bits, which only columns 0
to 7 enter (40_codec.md R133). -/
def enc (H : Matrices) (v : Variant) (d : Byte) : BitVec v.width :=
  d ++ sumColumns (H.of v) d

/-- `syn_V(c)` (40_codec.md R134). -/
def syn (H : Matrices) (v : Variant) (c : BitVec v.width) : BitVec v.parity :=
  sumColumns (H.of v) c

/-- `loc_SEC(S)`: the first column, in increasing order, that equals S (40_codec.md R136). -/
def locSec (H : GfMatrix 4 12) (S : BitVec 4) : Locator :=
  match (List.finRange 12).find? (fun i : Fin 12 => col H i == S) with
  | some i => .single i
  | none => .none

/-- The pairs (i, j) with i < j in lexicographic order, the order of the two loops of 40_codec.md R137. -/
def columnPairs : List (Fin 16 × Fin 16) :=
  (List.finRange 16).flatMap fun i => ((List.finRange 16).filter fun j => i < j).map fun j => (i, j)

/-- `loc_DEC(S)`: the lexicographically first pair of columns whose XOR is S; never a single position
(40_codec.md R137). -/
def locDec (H : GfMatrix 8 16) (S : BitVec 8) : Locator :=
  match columnPairs.find? (fun p : Fin 16 × Fin 16 => col H p.1 ^^^ col H p.2 == S) with
  | some p => .pair p.1 p.2
  | none => .none

/-- `locate_V(S)`: NONE for a zero syndrome without a scan, else the variant's locator (40_codec.md
R138). -/
def locate (H : Matrices) (v : Variant) (S : BitVec v.parity) : Locator :=
  if S = 0 then .none
  else
    match v with
    | .sec => locSec H.sec S
    | .dec => locDec H.dec S

/-- The n-bit word whose only 1 is at position p, `2^(n-1-p)` (40_codec.md R139). A position the word
does not have has no bit (DESIGN CHOICE, log entry 7; no reachable LOC names one, 10_state.md R40). -/
def positionMask (n p : Nat) : BitVec n := if p < n then BitVec.twoPow n (n - 1 - p) else 0

/-- `flip_V(c, L)`: flip each located bit (40_codec.md R139). -/
def flipLocated (v : Variant) (c : BitVec v.width) : Locator → BitVec v.width
  | .none => c
  | .single a => c ^^^ positionMask v.width a
  | .pair a b => c ^^^ positionMask v.width a ^^^ positionMask v.width b

/-- `take(8, c)` as a value: the data bits of a code word, `(val(c) >> R(V)) & 0xFF` (40_codec.md R140
step 4). -/
def dataBits (v : Variant) (c : BitVec v.width) : Byte := (c >>> v.parity).setWidth 8

/-- `decode_V(c)`: syndrome, locator result, corrected word, data block (40_codec.md R140). -/
def decodeWord (H : Matrices) (v : Variant) (c : BitVec v.width) :
    BitVec v.parity × Locator × BitVec v.width × Byte :=
  let S := syn H v c
  let L := locate H v S
  let c' := flipLocated v c L
  (S, L, c', dataBits v c')

/-- WF_SYS(V): the syndrome of every code word is 0 (40_codec.md R132). -/
abbrev WfSys (H : Matrices) (v : Variant) : Prop := ∀ d : Byte, syn H v (enc H v d) = 0

/-- WF_NZ(V): no column is 0 (40_codec.md R132, 90_conflicts.md C7). -/
abbrev WfNz (H : Matrices) (v : Variant) : Prop := ∀ j < v.width, col (H.of v) j ≠ 0

/-- WF_DIST_SEC: the 12 columns of H_SEC are pairwise distinct (40_codec.md R132). -/
abbrev WfDistSec (H : Matrices) : Prop := ∀ i < 12, ∀ j < 12, i < j → col H.sec i ≠ col H.sec j

/-- The XOR of columns i and j of H_DEC, the quantity the DEC locator compares (40_codec.md R137). -/
def pairSum (H : Matrices) (i j : Nat) : BitVec 8 := col H.dec i ^^^ col H.dec j

/-- WF_PAIR_DEC: the 120 pair XORs of H_DEC are nonzero and pairwise distinct (40_codec.md R132). -/
abbrev WfPairDec (H : Matrices) : Prop :=
  (∀ p ∈ columnPairs, pairSum H p.1 p.2 ≠ 0) ∧
    ∀ p ∈ columnPairs, ∀ q ∈ columnPairs, pairSum H p.1 p.2 = pairSum H q.1 q.2 → p = q

end Sys2Proof.Machine
end

