-- ==== Sys2Proof/Machine/Operands.lean ====
section
/-! DEFINITION. The operand forms: all are implicit (30_encoding.md R105). What a command reads from
CW, SYN and DATA, how a result goes back into CW and SYN (R106), and the value each register shows to a
host read (10_state.md R34 to R48, 20_memory.md R72). -/

namespace Sys2Proof.Machine

/-- The code word operand, `CW[N(V)-1:0]` (10_state.md R35, R36). -/
def codeWord (v : Variant) (s : State) : BitVec v.width := s.cw.setWidth v.width

/-- The syndrome operand, `SYN[R(V)-1:0]` (40_codec.md R153). -/
def syndromeOperand (v : Variant) (s : State) : BitVec v.parity := s.syn.setWidth v.parity

/-- `CW[N(V)-1:0] <- c`: the bits of CW above the code word are kept (10_state.md R36). -/
def insertCodeWord (v : Variant) (cw : BitVec 16) (c : BitVec v.width) : BitVec 16 :=
  (cw >>> v.width <<< v.width) ||| c.setWidth 16

/-- `CW <- zext_16(c)`: the bits of CW above the code word become 0 (10_state.md R36). -/
def zextCodeWord (v : Variant) (c : BitVec v.width) : BitVec 16 := c.setWidth 16

/-- `SYN <- zext_8(S)` (10_state.md R37). -/
def zextSyndrome (v : Variant) (S : BitVec v.parity) : BitVec 8 := S.setWidth 8

/-- Field KIND of LOC: 0 NONE, 1 SINGLE, 2 PAIR (10_state.md R38). -/
def Locator.kind : Locator → BitVec 2
  | .none => 0
  | .single _ => 1
  | .pair _ _ => 2

/-- Field POSA of LOC (10_state.md R38, R39). -/
def Locator.posA : Locator → BitVec 4
  | .none => 0
  | .single a => BitVec.ofNat 4 a
  | .pair a _ => BitVec.ofNat 4 a

/-- Field POSB of LOC (10_state.md R38, R39). -/
def Locator.posB : Locator → BitVec 4
  | .none => 0
  | .single _ => 0
  | .pair _ b => BitVec.ofNat 4 b

/-- STATUS as read (10_state.md R41). -/
def statusWord (st : Status) : Word :=
  0#16 ++ st.lastop ++ st.errcode ++ BitVec.ofBool st.err ++ 0#3 ++ BitVec.ofBool st.vlast.bit
    ++ BitVec.ofBool st.pad ++ BitVec.ofBool st.uncorr ++ BitVec.ofBool st.corr
    ++ BitVec.ofBool st.synnz

/-- LOC as read (10_state.md R38). -/
def locWord (l : LocReg) : Word :=
  0#16 ++ l.result.posB ++ l.result.posA ++ 0#5 ++ BitVec.ofBool l.lv.bit ++ l.result.kind

/-- PKOUT as read (10_state.md R45). -/
def pkoutWord (p : PkOut) : Word := 0#14 ++ p.nout ++ p.b1 ++ p.b0

/-- PKST as read: UPCNT in [12:8], PKCNT in [2:0] (10_state.md R48). -/
def pkstWord (s : State) : Word :=
  0#19 ++ BitVec.ofNat 5 s.uq.length ++ 0#5 ++ BitVec.ofNat 3 s.pq.length

/-- ID as read: "GF2" and the interface revision (10_state.md R44). -/
def idWord : Word := 0x47463201

/-- `BusRead(off)`: the value of the register at an offset; CMD and the reserved offsets read 0
(20_memory.md R72, R77). -/
def busRead (off : Nat) (s : State) : Word :=
  match off with
  | 0x04 => statusWord s.status
  | 0x08 => s.data.setWidth 32
  | 0x0C => s.cw.setWidth 32
  | 0x10 => s.syn.setWidth 32
  | 0x14 => locWord s.loc
  | 0x18 => pkoutWord s.pkout
  | 0x1C => pkstWord s
  | 0x20 => idWord
  | _ => 0

end Sys2Proof.Machine
end

