-- ==== Sys2Proof/Machine/Flags.lean ====
section
/-! DEFINITION. The STATUS fields (10_state.md R41) as each command writes them (R42). A command that is
in error writes none of these (60_exceptions.md R222). -/

namespace Sys2Proof.Machine

/-- SYNNZ for a computed syndrome: S ≠ 0 (10_state.md R42). -/
def synnzFlag {r : Nat} (S : BitVec r) : Bool := S != 0

/-- CORR for a locator result: KIND ≠ NONE (10_state.md R42). -/
def corrFlag (L : Locator) : Bool := L != .none

/-- UNCORR: S ≠ 0 and KIND = NONE (10_state.md R42). -/
def uncorrFlag {r : Nat} (S : BitVec r) (L : Locator) : Bool := S != 0 && L == .none

/-- STATUS after a command without a variant: LASTOP alone (10_state.md R42). -/
def Status.executed (op : BitVec 4) (st : Status) : Status := { st with lastop := op }

/-- STATUS after a command of variant v: VLAST and LASTOP (10_state.md R42). -/
def Status.executedFor (v : Variant) (op : BitVec 4) (st : Status) : Status :=
  { st with vlast := v, lastop := op }

/-- The host's write of STATUS: a 1 in bit 8 clears ERR and ERRCODE, every other bit is ignored
(20_memory.md R76). -/
def Status.hostWrite (value : Word) (st : Status) : Status :=
  if value.getLsbD 8 then { st with err := false, errcode := 0 } else st

end Sys2Proof.Machine
end

