-- ==== Sys2Proof/Machine/Ops.lean ====
section
/-! DEFINITION. The operations that several commands share: raising a command error, which is all the
core has in place of taking an exception (60_exceptions.md R222, R226), the packer and unpacker queues
(41_stream.md), and reset. The core has no memory (00_scope.md R16). -/

namespace Sys2Proof.Machine

/-- The cause code of a command error (60_exceptions.md R221). -/
def errorCode : CmdError → BitVec 3
  | .illop => 1
  | .rsvd => 2
  | .upovf => 3
  | .upempty => 4

/-- `raise CmdError(code)`: the first code is kept, ERR is set, and nothing else of the core changes
(60_exceptions.md R222). The model's record gets the error as well (log entry 5). -/
def raiseError (e : CmdError) (s : State) : State :=
  { s with
    status := { s.status with
      err := true
      errcode := if s.status.err then s.status.errcode else errorCode e }
    errLog := s.errLog ++ [e] }

/-- `pack_append(s)`: append bits to the packer and replace PKOUT with the bytes that became complete
(41_stream.md R181). -/
def packAppend (new : List Bool) (s : State) : State :=
  let t := s.pq ++ new
  let k := t.length / 8
  { s with
    pkout :=
      { b0 := BitVec.ofNat 8 (val (t.take 8))
        b1 := if k = 2 then BitVec.ofNat 8 (val ((t.drop 8).take 8)) else 0
        nout := BitVec.ofNat 2 k }
    pq := t.drop (8 * k) }

/-- The queue part of FLUSH: a nonempty residue is padded with zero bits to one byte; an empty one
completes no byte (41_stream.md R184). -/
def packFlush (s : State) : State :=
  if 0 < s.pq.length then
    { s with
      pkout := { b0 := BitVec.ofNat 8 (val (s.pq ++ zeros (8 - s.pq.length))), b1 := 0, nout := 1 }
      pq := [] }
  else { s with pkout := { b0 := 0, b1 := 0, nout := 0 } }

/-- The word `w` a pull of n bits takes from the queue: the first n, or all of them padded with zero
bits on the right (41_stream.md R186). -/
def pulledBits (n : Nat) (uq : List Bool) : List Bool :=
  if n ≤ uq.length then uq.take n else uq ++ zeros (n - uq.length)

/-- What a pull of n bits leaves in the queue (41_stream.md R186). -/
def queueAfterPull (n : Nat) (uq : List Bool) : List Bool :=
  if n ≤ uq.length then uq.drop n else []

/-- PAD after a pull of n bits: fewer were queued (10_state.md R42, "short"). -/
def padFlag (n : Nat) (uq : List Bool) : Bool := decide (uq.length < n)

/-- RESET: every piece of the core's state has its reset value (70_reset_and_hazards.md R250, R251).
The host agent's list and reads are not the core's, and the error record is never cleared (log entries
2, 5 and 6). -/
def resetCore (s : State) : State :=
  { State.reset with pending := s.pending, reads := s.reads, errLog := s.errLog }

end Sys2Proof.Machine
end

