-- ==== Sys2Proof/Machine/Codec.lean ====
section
/-! DEFINITION. The codec commands (40_codec.md §4). The effect of each is a function of the matrices,
which are arguments (00_scope.md R8); the meaning is that effect at the core's own matrices. -/

namespace Sys2Proof.Machine

/-- NOP: LASTOP only (40_codec.md R150). -/
def nopEffect (s : State) : State := { s with status := s.status.executed 0x0 }

/-- ENC.V: CW <- zext_16(enc_V(DATA)) (40_codec.md R151). -/
def encEffect (H : Matrices) (v : Variant) (s : State) : State :=
  { s with
    cw := zextCodeWord v (enc H v s.data)
    status := s.status.executedFor v 0x1 }

/-- SYND.V: SYN <- zext_8(syn_V(CW[N-1:0])) (40_codec.md R152). -/
def syndEffect (H : Matrices) (v : Variant) (s : State) : State :=
  let S := syn H v (codeWord v s)
  { s with
    syn := zextSyndrome v S
    status := { s.status with synnz := synnzFlag S }.executedFor v 0x2 }

/-- LOCATE.V: LOC <- locate_V(SYN[R-1:0]) (40_codec.md R153). -/
def locateEffect (H : Matrices) (v : Variant) (s : State) : State :=
  let S := syndromeOperand v s
  let L := locate H v S
  { s with
    loc := { result := L, lv := v }
    status := { s.status with uncorr := uncorrFlag S L }.executedFor v 0x3 }

/-- CORRECT: flip in CW the bits LOC names, in the variant LOC.LV (40_codec.md R154). -/
def correctEffect (s : State) : State :=
  let W := s.loc.lv
  let L := s.loc.result
  { s with
    cw := insertCodeWord W s.cw (flipLocated W (codeWord W s) L)
    status := { s.status with corr := corrFlag L }.executedFor W 0x4 }

/-- DECODE.V: syndrome, location, correction in place and extraction (40_codec.md R155). -/
def decodeEffect (H : Matrices) (v : Variant) (s : State) : State :=
  let (S, L, c', d) := decodeWord H v (codeWord v s)
  { s with
    syn := zextSyndrome v S
    loc := { result := L, lv := v }
    cw := insertCodeWord v s.cw c'
    data := d
    status :=
      { s.status with
        synnz := synnzFlag S
        corr := corrFlag L
        uncorr := uncorrFlag S L }.executedFor v 0x5 }

/-- NOP (40_codec.md R150). -/
def execNop (s : State) : Host.Outcome State Fault Refusal := .next (nopEffect s)

/-- ENC.V (40_codec.md R151). -/
def execEnc (v : Variant) (s : State) : Host.Outcome State Fault Refusal :=
  .next (encEffect Config.matrices v s)

/-- SYND.V (40_codec.md R152). -/
def execSynd (v : Variant) (s : State) : Host.Outcome State Fault Refusal :=
  .next (syndEffect Config.matrices v s)

/-- LOCATE.V (40_codec.md R153). -/
def execLocate (v : Variant) (s : State) : Host.Outcome State Fault Refusal :=
  .next (locateEffect Config.matrices v s)

/-- CORRECT (40_codec.md R154). -/
def execCorrect (s : State) : Host.Outcome State Fault Refusal := .next (correctEffect s)

/-- DECODE.V (40_codec.md R155). -/
def execDecode (v : Variant) (s : State) : Host.Outcome State Fault Refusal :=
  .next (decodeEffect Config.matrices v s)

end Sys2Proof.Machine
end

