-- ==== Sys2Proof/Machine/Stream.lean ====
section
/-! DEFINITION. The packer and unpacker commands (41_stream.md §2, §3). -/

namespace Sys2Proof.Machine

/-- PACKCW.V: append the N(V) bits of the code word in CW (41_stream.md R182). -/
def packcwEffect (v : Variant) (s : State) : State :=
  let t := packAppend (bits (codeWord v s)) s
  { t with status := s.status.executedFor v 0x6 }

/-- PACKDATA: append the 8 bits of DATA (41_stream.md R183). -/
def packdataEffect (s : State) : State :=
  let t := packAppend (bits s.data) s
  { t with status := s.status.executed 0x7 }

/-- FLUSH: pad the residue to a byte (41_stream.md R184). -/
def flushEffect (s : State) : State :=
  let t := packFlush s
  { t with status := s.status.executed 0x8 }

/-- UPUSH: push DATA into the unpacker queue, or UPOVF above 16 queued bits (41_stream.md R185). -/
def upushEffect (s : State) : State :=
  if 16 < s.uq.length then raiseError .upovf s
  else { s with uq := s.uq ++ bits s.data, status := s.status.executed 0x9 }

/-- UPULL.V: pull one code word into CW, or UPEMPTY on an empty queue (41_stream.md R186). -/
def upullEffect (v : Variant) (s : State) : State :=
  if s.uq.length = 0 then raiseError .upempty s
  else
    { s with
      uq := queueAfterPull v.width s.uq
      cw := zextCodeWord v (BitVec.ofNat v.width (val (pulledBits v.width s.uq)))
      status := { s.status with pad := padFlag v.width s.uq }.executedFor v 0xA }

/-- SCLR: clear the stream state (41_stream.md R187). -/
def sclrEffect (s : State) : State :=
  { s with
    pq := [], uq := [], pkout := .zero
    status := { s.status with pad := false }.executed 0xB }

/-- PACKCW.V (41_stream.md R182). -/
def execPackcw (v : Variant) (s : State) : Host.Outcome State Fault Refusal :=
  .next (packcwEffect v s)

/-- PACKDATA (41_stream.md R183). -/
def execPackdata (s : State) : Host.Outcome State Fault Refusal := .next (packdataEffect s)

/-- FLUSH (41_stream.md R184). -/
def execFlush (s : State) : Host.Outcome State Fault Refusal := .next (flushEffect s)

/-- UPUSH (41_stream.md R185). -/
def execUpush (s : State) : Host.Outcome State Fault Refusal := .next (upushEffect s)

/-- UPULL.V (41_stream.md R186). -/
def execUpull (v : Variant) (s : State) : Host.Outcome State Fault Refusal :=
  .next (upullEffect v s)

/-- SCLR (41_stream.md R187). -/
def execSclr (s : State) : Host.Outcome State Fault Refusal := .next (sclrEffect s)

end Sys2Proof.Machine
end

