-- ==== Sys2Proof/Machine/Dispatch.lean ====
section
/-! DEFINITION. The meaning of each command (30_encoding.md R110): one arm per constructor. -/

namespace Sys2Proof.Machine

def exec (i : Instr) (s : State) : Host.Outcome State Fault Refusal :=
  match i with
  | .nop => Sys2Proof.Machine.execNop s
  | .enc v => Sys2Proof.Machine.execEnc v s
  | .synd v => Sys2Proof.Machine.execSynd v s
  | .locate v => Sys2Proof.Machine.execLocate v s
  | .correct => Sys2Proof.Machine.execCorrect s
  | .decode v => Sys2Proof.Machine.execDecode v s
  | .packcw v => Sys2Proof.Machine.execPackcw v s
  | .packdata => Sys2Proof.Machine.execPackdata s
  | .flush => Sys2Proof.Machine.execFlush s
  | .upush => Sys2Proof.Machine.execUpush s
  | .upull v => Sys2Proof.Machine.execUpull v s
  | .sclr => Sys2Proof.Machine.execSclr s

end Sys2Proof.Machine
end

