-- ==== Sys2Proof/Machine/Bus.lean ====
section
/-! DEFINITION. Host register accesses (20_memory.md): which are accepted, what a write does at each
offset, the execution of a command word, and what one host event does. -/

namespace Sys2Proof.Machine

/-- The accesses the core accepts: 32-bit, at an offset that is a multiple of 4 and inside the 256-byte
window (20_memory.md R71). -/
def accepted (bytes off : Nat) : Bool := bytes == 4 && off % 4 == 0 && decide (off < 0x100)

/-- `Exec(w)`: the command the word decodes to, or the error it raises (30_encoding.md R110). -/
def execWord (w : Word) (s : State) : Host.Outcome State Fault Refusal :=
  match decode w with
  | .ok i => exec i s
  | .error e => .next (raiseError e s)

/-- `BusWrite(off, value)` of an accepted access (20_memory.md R73). SYN, LOC, PKOUT, PKST, ID and the
reserved offsets ignore writes. -/
def busWrite (off : Nat) (value : Word) (s : State) : Host.Outcome State Fault Refusal :=
  match off with
  | 0x00 => execWord value s
  | 0x04 => .next { s with status := s.status.hostWrite value }
  | 0x08 => .next { s with data := value.setWidth 8 }
  | 0x0C => .next { s with cw := value.setWidth 16 }
  | _ => .next s

/-- One host event. A refused access has no step: the host is stuck (20_memory.md R71, log entry 4). A
read has no side effect on the core; its value goes to the host (R72). -/
def hostEvent (e : HostEvent) (s : State) : Host.Outcome State Fault Refusal :=
  match e with
  | .write bytes off value =>
    if accepted bytes off then busWrite off value s else .fault .unsupportedAccess
  | .read bytes off =>
    if accepted bytes off then .next { s with reads := s.reads ++ [busRead off s] }
    else .fault .unsupportedAccess
  | .reset => .next (resetCore s)

/-- The offset in the window of an address of the host's map, if the window holds it (20_memory.md R70,
R87). -/
def windowOffset (address : Nat) : Option Nat :=
  if Config.coreBase ≤ address ∧ address < Config.coreBase + 0x100 then
    some (address - Config.coreBase)
  else none

/-- The host event of a command: a 32-bit write of its word to CMD (30_encoding.md R100, R111). -/
def commandEvent (i : Instr) : HostEvent := .write 4 0x00 (encode i)

end Sys2Proof.Machine
end

