-- ==== Sys2Proof/Machine/Step.lean ====
section
/-! DEFINITION. One step: the host's next event, if it has one. -/

namespace Sys2Proof.Machine

/-- One step. The core performs the host's accesses one at a time in issue order (20_memory.md R82).
With none pending it waits, holding its state (60_exceptions.md R234, 70_reset_and_hazards.md R252;
DESIGN CHOICE, safe, log entry 2). -/
def step (s : State) : Host.Outcome State Fault Refusal :=
  match s.pending with
  | [] => .next s
  | e :: rest => hostEvent e { s with pending := rest }

/-- `s` with the host's next access a write to CMD of the opcode-table word `w` (log entries 3, 10). -/
def State.withFetchWord (s : State) (nbits w : Nat) : State :=
  { s with pending := .write 4 0x00 (tableWord nbits w) :: s.pending }

end Sys2Proof.Machine
end

