-- ==== Sys2Proof/Machine/Assembler.lean ====
section
/-! DEFINITION. The assembler's names (30_encoding.md R111) and pseudo-instructions (R112). They have no
hardware meaning of their own (92_eei_decisions.md D17): a pseudo-instruction is a list of host
accesses. -/

namespace Sys2Proof.Machine

/-- The suffix of a command whose V is used (30_encoding.md R111). -/
def variantSuffix : Variant → String
  | .sec => ".SEC"
  | .dec => ".DEC"

/-- The assembler's mnemonic of a command (30_encoding.md R111). -/
def asmMnemonic : Instr → String
  | .nop => "NOP"
  | .enc v => "ENC" ++ variantSuffix v
  | .synd v => "SYND" ++ variantSuffix v
  | .locate v => "LOCATE" ++ variantSuffix v
  | .correct => "CORRECT"
  | .decode v => "DECODE" ++ variantSuffix v
  | .packcw v => "PACKCW" ++ variantSuffix v
  | .packdata => "PACKDATA"
  | .flush => "FLUSH"
  | .upush => "UPUSH"
  | .upull v => "UPULL" ++ variantSuffix v
  | .sclr => "SCLR"

/-- The offset a register name stands for (10_state.md R31). -/
def registerOffset (name : String) : Option Nat :=
  [("CMD", 0x00), ("STATUS", 0x04), ("DATA", 0x08), ("CW", 0x0C), ("SYN", 0x10), ("LOC", 0x14),
   ("PKOUT", 0x18), ("PKST", 0x1C), ("ID", 0x20)].lookup name

/-- CLRERR: `WR STATUS, 0x100` (30_encoding.md R112). -/
def clrErr : List HostEvent := [.write 4 0x04 0x100]

/-- ENCB.V b: `WR DATA, b`, then ENC.V (30_encoding.md R112). -/
def encB (v : Variant) (b : Word) : List HostEvent := [.write 4 0x08 b, commandEvent (.enc v)]

/-- DECW.V w: `WR CW, w`, then DECODE.V (30_encoding.md R112). -/
def decW (v : Variant) (w : Word) : List HostEvent := [.write 4 0x0C w, commandEvent (.decode v)]

/-- PUSHB b: `WR DATA, b`, then UPUSH (30_encoding.md R112). -/
def pushB (b : Word) : List HostEvent := [.write 4 0x08 b, commandEvent .upush]

/-- PACKB b: `WR DATA, b`, then PACKDATA (30_encoding.md R112). -/
def packB (b : Word) : List HostEvent := [.write 4 0x08 b, commandEvent .packdata]

end Sys2Proof.Machine
end

