-- ==== Sys2Proof/Machine/Framer.lean ====
section
/-! DEFINITION. The reference host framer (41_stream.md §4): HOST SOFTWARE, not hardware (00_scope.md
R6), written as host procedures over the core's commands. The matrices are arguments (00_scope.md R8);
`runCommand` at the core's own matrices is what `exec` answers (Laws/Step.lean). FRAMER_DROP_PAD is an
argument (92_eei_decisions.md D20, log entry 13). -/

namespace Sys2Proof.Machine

/-- The state a command leaves, for given matrices: no command stops (60_exceptions.md R226). -/
def runCommand (H : Matrices) (i : Instr) (s : State) : State :=
  match i with
  | .nop => nopEffect s
  | .enc v => encEffect H v s
  | .synd v => syndEffect H v s
  | .locate v => locateEffect H v s
  | .correct => correctEffect s
  | .decode v => decodeEffect H v s
  | .packcw v => packcwEffect v s
  | .packdata => packdataEffect s
  | .flush => flushEffect s
  | .upush => upushEffect s
  | .upull v => upullEffect v s
  | .sclr => sclrEffect s

/-- `BusWrite(DATA, b)` for a byte b (20_memory.md R74). -/
def putData (b : Byte) (s : State) : State := { s with data := b }

/-- `BusWrite(CW, w)` for a 16-bit w (20_memory.md R75). -/
def putCw (w : BitVec 16) (s : State) : State := { s with cw := w }

/-- `p <- BusRead(PKOUT)` and `take(p.NOUT, [p.B0, p.B1])` (41_stream.md R189). -/
def completedBytes (s : State) : List Byte :=
  let p := busRead 0x18 s
  [p.extractLsb' 0 8, p.extractLsb' 8 8].take (p.extractLsb' 16 2).toNat

/-- `PKST.UPCNT`, from a read of PKST (10_state.md R48). -/
def readUpcnt (s : State) : Nat := ((busRead 0x1C s).extractLsb' 8 5).toNat

/-- The body of EncodeFile's loop, for one byte (41_stream.md R189). -/
def encodeByte (H : Matrices) (v : Variant) (a : State × List Byte) (b : Byte) : State × List Byte :=
  let t := runCommand H (.packcw v) (runCommand H (.enc v) (putData b a.1))
  (t, a.2 ++ completedBytes t)

/-- EncodeFile(B, V): the state it leaves and the bytes it returns (41_stream.md R189). -/
def encodeFile (H : Matrices) (v : Variant) (B : List Byte) (s : State) : State × List Byte :=
  let a := B.foldl (encodeByte H v) (runCommand H .sclr s, [])
  let t := runCommand H .flush a.1
  (t, a.2 ++ completedBytes t)

/-- UPULL.V, DECODE.V, PACKDATA, and `BusRead(PKOUT).B0` (41_stream.md R190). -/
def pullOne (H : Matrices) (v : Variant) (a : State × List Byte) : State × List Byte :=
  let t := runCommand H .packdata (runCommand H (.decode v) (runCommand H (.upull v) a.1))
  (t, a.2 ++ [(busRead 0x18 t).extractLsb' 0 8])

/-- `while PKST.UPCNT ≥ N(V)` of DecodeFile (41_stream.md R190), at most `fuel` rounds. -/
def pullWhileFull (H : Matrices) (v : Variant) :
    (fuel : Nat) → State × List Byte → State × List Byte
  | 0, a => a
  | fuel + 1, a =>
    if v.width ≤ readUpcnt a.1 then pullWhileFull H v fuel (pullOne H v a) else a

/-- The body of DecodeFile's loop, for one byte: push it, then pull while a word is queued. A pull takes
at least 12 of at most 24 queued bits, so 24 rounds are enough (41_stream.md R190). -/
def decodeByte (H : Matrices) (v : Variant) (a : State × List Byte) (e : Byte) : State × List Byte :=
  pullWhileFull H v 24 (runCommand H .upush (putData e a.1), a.2)

/-- DecodeFile(E, V): the state it leaves and the bytes it returns (41_stream.md R190). -/
def decodeFile (H : Matrices) (v : Variant) (dropPad : Bool) (E : List Byte) (s : State) :
    State × List Byte :=
  let a := E.foldl (decodeByte H v) (runCommand H .sclr s, [])
  if 0 < readUpcnt a.1 ∧ ¬(dropPad ∧ readUpcnt a.1 < 8) then pullOne H v a else a

end Sys2Proof.Machine
end

