-- ==== Sys2Proof/Safety.lean ====
section
/-! DEFINITION. What counts as a safe run, in the terms the statements use: the invariant of the core's
registers and queues, the host duties of 20_memory.md R71, and a run without a command error. -/

namespace Sys2Proof.Machine

/-- A LOC value the core can hold (10_state.md R40): NONE with either LV, SINGLE with LV = 0, or PAIR
with LV = 1 and POSA < POSB. -/
def LocReg.Reachable (l : LocReg) : Prop :=
  match l.result with
  | .none => True
  | .single _ => l.lv = .sec
  | .pair a b => l.lv = .dec ∧ a < b

/-- STATUS as the rules leave it. -/
structure Status.Legal (st : Status) : Prop where
  /-- ERR is set exactly when ERRCODE names a cause (10_state.md R41, 60_exceptions.md R222). -/
  err_iff : st.err = true ↔ st.errcode ≠ 0
  /-- ERRCODE is 0 to 4 (60_exceptions.md R221). -/
  errcode_le : st.errcode.toNat ≤ 4
  /-- LASTOP is 0x0 to 0xB (10_state.md R42, 93_implementation_defined.md V9). -/
  lastop_le : st.lastop.toNat ≤ 0xB

/-- PKOUT as the rules leave it (10_state.md R45): a byte that was not completed reads 0. -/
structure PkOut.Legal (p : PkOut) : Prop where
  nout_le : p.nout.toNat ≤ 2
  b1_zero : p.nout ≠ 2 → p.b1 = 0
  b0_zero : p.nout = 0 → p.b0 = 0

/-- The queues as the rules leave them (10_state.md R46, R47, 41_stream.md R188(e)). -/
structure QueuesLegal (s : State) : Prop where
  pq_length : s.pq.length = 0 ∨ s.pq.length = 4
  uq_mod : s.uq.length % 4 = 0
  uq_le : s.uq.length ≤ 24

/-- The invariant every step keeps. -/
structure Invariant (s : State) : Prop where
  loc : s.loc.Reachable
  status : s.status.Legal
  pkout : s.pkout.Legal
  queues : QueuesLegal s
  /-- ERR can only be set if the model's record names a command error (60_exceptions.md R224). -/
  recorded : s.status.err = true → s.errLog ≠ []

/-- A host event the bus accepts, or RESET (20_memory.md R71). -/
def HostEvent.accepted : HostEvent → Bool
  | .write bytes off _ => Machine.accepted bytes off
  | .read bytes off => Machine.accepted bytes off
  | .reset => true

/-- The host's duty: it issues only accesses the core accepts. Then no step stops. -/
def HostBehaves (s : State) : Prop := ∀ e ∈ s.pending, e.accepted = true

/-- No command error occurred in the run so far, which the host cannot hide by clearing ERR
(60_exceptions.md R224, 92_eei_decisions.md D9). -/
def NoCommandError (s : State) : Prop := s.errLog = []

end Sys2Proof.Machine
end

