-- ==== Sys2Proof/Certificates/Slice0/Obligations.lean ====
section
/-! DEFINITION. The statements about the model. Each says which rule of spec/ it formalises; the words
they share come first. "Completes" means that `exec` answers a next state. The core has no memory
(00_scope.md R16), so a frame speaks of registers, queues, STATUS, the host agent's two lists and the
error record: every field of `State` that the record update of a statement does not name is unchanged. -/

namespace Sys2Proof.Claims

open Sys2Proof.Machine

/-- f 0 ⊕ f 1 ⊕ … ⊕ f (k-1), 0 for k = 0 (00_scope.md R13). -/
def xorSum : Nat → (Nat → Bool) → Bool
  | 0, _ => false
  | k + 1, f => Bool.xor (xorSum k f) (f k)

/-- The bits of a byte in stream order: bit 7 first (41_stream.md R180). -/
def byteBits (b : BitVec 8) : List Bool := (List.range 8).map fun p => b.getLsbD (7 - p)

/-- The bits of the code word of variant v in CW, position 0 first (10_state.md R35). -/
def cwBits (v : Variant) (cw : BitVec 16) : List Bool :=
  (List.range v.width).map fun p => cw.getLsbD (v.width - 1 - p)

/-- The zero bits that fill n bits up to a byte boundary (41_stream.md R188(b)). -/
def padBits (n : Nat) : List Bool := List.replicate ((8 - n % 8) % 8) false

/-- Column j of H_V as an 8-bit value, SEC columns zero-extended (00_scope.md R15). -/
def column (H : Matrices) (v : Variant) (j : Nat) : BitVec 8 := (col (H.of v) j).setWidth 8

/-- `SYN[R(V)-1:0]` as an 8-bit value (40_codec.md R153). -/
def syndromeOf (v : Variant) (syn : BitVec 8) : BitVec 8 :=
  match v with
  | .sec => syn &&& 0x0F
  | .dec => syn

/-- L is the locator result of variant v for syndrome S: NONE exactly when S is 0 or matches nothing,
else the first match (40_codec.md R136, R137, R138). -/
def LocatesTo (H : Matrices) (v : Variant) (S : BitVec 8) : Locator → Prop
  | .none =>
    S = 0 ∨
      match v with
      | .sec => ∀ a < 12, column H v a ≠ S
      | .dec => ∀ b < 16, ∀ a < b, column H v a ^^^ column H v b ≠ S
  | .single a => v = .sec ∧ S ≠ 0 ∧ column H v a = S ∧ ∀ i < a.val, column H v i ≠ S
  | .pair a b =>
    v = .dec ∧ S ≠ 0 ∧ a < b ∧ column H v a ^^^ column H v b = S ∧
      ∀ j < 16, ∀ i < j, (i < a.val ∨ i = a.val ∧ j < b.val) → column H v i ^^^ column H v j ≠ S

/-- Register bit k of CW is the bit of a position the result names (40_codec.md R139). -/
def flips (v : Variant) (L : Locator) (k : Nat) : Bool :=
  match L with
  | .none => false
  | .single a => k == v.width - 1 - a.val
  | .pair a b => k == v.width - 1 - a.val || k == v.width - 1 - b.val

/-- The state after a command error (60_exceptions.md R222): ERR set, the first code kept, the model's
record extended, nothing else changed. -/
def afterError (code : BitVec 3) (e : CmdError) (s : State) : State :=
  { s with
    status := { s.status with err := true, errcode := if s.status.err then s.status.errcode else code }
    errLog := s.errLog ++ [e] }

/-- The opcode map, OP 0x0 to 0xB in order (30_encoding.md R102). -/
def opcodeMap (v : Variant) : List Instr :=
  [.nop, .enc v, .synd v, .locate v, .correct, .decode v, .packcw v, .packdata, .flush, .upush,
   .upull v, .sclr]

/-- The command raises its own error in s (41_stream.md R185, R186). -/
def raisesOwnError (i : Instr) (s : State) : Prop :=
  (i = .upush ∧ 16 < s.uq.length) ∨ (∃ v, i = .upull v ∧ s.uq = [])

/-- p and q are what packing the stream leaves in PKOUT and PQ: the whole bytes of the stream, first
bit first, at most two, and the rest (41_stream.md R180, R181; 10_state.md R45). -/
def PacksTo (stream : List Bool) (p : PkOut) (q : List Bool) : Prop :=
  q.length ≤ 7 ∧
    ((stream = q ∧ p = { b0 := 0, b1 := 0, nout := 0 }) ∨
      (∃ x, stream = byteBits x ++ q ∧ p = { b0 := x, b1 := 0, nout := 1 }) ∨
      ∃ x y, stream = byteBits x ++ byteBits y ++ q ∧ p = { b0 := x, b1 := y, nout := 2 })

/-- STATUS after an executed command, from the states before and after it: the table of 10_state.md
R42, row by row. -/
def statusAfter (i : Instr) (s t : State) : Status :=
  match i with
  | .nop => { s.status with lastop := 0x0 }
  | .enc v => { s.status with vlast := v, lastop := 0x1 }
  | .synd v => { s.status with synnz := t.syn != 0, vlast := v, lastop := 0x2 }
  | .locate v =>
    { s.status with
      uncorr := syndromeOf v s.syn != 0 && t.loc.result == .none, vlast := v, lastop := 0x3 }
  | .correct =>
    { s.status with corr := s.loc.result != .none, vlast := s.loc.lv, lastop := 0x4 }
  | .decode v =>
    { s.status with
      synnz := t.syn != 0, corr := t.loc.result != .none
      uncorr := t.syn != 0 && t.loc.result == .none, vlast := v, lastop := 0x5 }
  | .packcw v => { s.status with vlast := v, lastop := 0x6 }
  | .packdata => { s.status with lastop := 0x7 }
  | .flush => { s.status with lastop := 0x8 }
  | .upush => { s.status with lastop := 0x9 }
  | .upull v =>
    { s.status with pad := decide (s.uq.length < v.width), vlast := v, lastop := 0xA }
  | .sclr => { s.status with pad := false, lastop := 0xB }

/-- Write each word to CW and issue PACKCW.V, collecting the bytes PKOUT shows. -/
def packWords (H : Matrices) (v : Variant) (ws : List (BitVec 16)) (s : State) : State × List Byte :=
  ws.foldl (fun a w =>
    let t := runCommand H (.packcw v) (putCw w a.1)
    (t, a.2 ++ completedBytes t)) (s, [])

/-- Pull while a whole word is queued, at most `fuel` times, collecting the values of CW. -/
def pullWords (H : Matrices) (v : Variant) :
    Nat → State × List (BitVec 16) → State × List (BitVec 16)
  | 0, a => a
  | fuel + 1, a =>
    if v.width ≤ a.1.uq.length then
      let t := runCommand H (.upull v) a.1
      pullWords H v fuel (t, a.2 ++ [t.cw])
    else a

/-- Push each byte and pull while a whole word is queued. -/
def unpackWords (H : Matrices) (v : Variant) (bs : List Byte) (s : State) :
    State × List (BitVec 16) :=
  bs.foldl (fun a b => pullWords H v 2 (runCommand H .upush (putData b a.1), a.2)) (s, [])

/-- The access is not 32-bit, not aligned or not inside the window (20_memory.md R71). -/
def Unsupported (bytes off : Nat) : Prop := bytes ≠ 4 ∨ off % 4 ≠ 0 ∨ 0x100 ≤ off

end Sys2Proof.Claims

section

open Sys2Proof Sys2Proof.Machine Sys2Proof.Claims

/-! ### Encoding -/

/-- 30_encoding.md R102, R111: the decoder gives back every command from its word. -/
def Obligations.DecodeOfEncodeIsTheCommand : Prop :=
  ∀ i : Instr, i.wellFormed = true → decode (encode i) = .ok i

/-- 30_encoding.md R102, R103, R104, R107: over all 2^32 words, a word decodes to a command exactly when
it is that command's word, or, for a command that ignores V, that word with bit 4 set. -/
def Obligations.WordDecodesExactlyToItsCommand : Prop :=
  ∀ (w : Word) (i : Instr),
    decode w = .ok i ↔ w = encode i ∨ (variantOf i = none ∧ w = encode i ||| 0x10)

/-- 30_encoding.md R109: every word is one of the twelve commands, ILLOP or RSVD, and which of the
three is decided by OP and the reserved bits. -/
def Obligations.DecodeIsTotalAndRejectsByCause : Prop :=
  ∀ w : Word,
    ((∃ i, decode w = .ok i) ↔ wordWellFormed w = true) ∧
    (decode w = .error .illop ↔ 12 ≤ w.toNat % 16) ∧
    (decode w = .error .rsvd ↔ w.toNat % 16 < 12 ∧ 32 ≤ w.toNat)

/-- 30_encoding.md R102: some words of the opcode map, written out. -/
def Obligations.OpcodeMapSampleWordsDecode : Prop :=
  decode 0x00000000 = .ok .nop ∧ decode 0x00000010 = .ok .nop ∧
  decode 0x00000011 = .ok (.enc .dec) ∧ decode 0x00000002 = .ok (.synd .sec) ∧
  decode 0x00000013 = .ok (.locate .dec) ∧ decode 0x00000014 = .ok .correct ∧
  decode 0x00000005 = .ok (.decode .sec) ∧ decode 0x00000016 = .ok (.packcw .dec) ∧
  decode 0x00000017 = .ok .packdata ∧ decode 0x00000008 = .ok .flush ∧
  decode 0x00000019 = .ok .upush ∧ decode 0x0000000A = .ok (.upull .sec) ∧
  decode 0x0000001B = .ok .sclr ∧ decode 0x0000000C = .error .illop ∧
  decode 0x00000021 = .error .rsvd ∧ decode 0xFFFFFFFC = .error .illop

/-! ### Steps, bus and reset -/

/-- 20_memory.md R73, R82, 30_encoding.md R110: when the host's next access is a 32-bit write to CMD of
a word that decodes to i, the step takes the access off the host's list and runs i. -/
def Obligations.StepRunsTheDecodedCommand : Prop :=
  ∀ (s : State) (rest : List HostEvent) (w : Word) (i : Instr),
    s.pending = .write 4 0x00 w :: rest → decode w = .ok i →
      step s = exec i { s with pending := rest }

/-- 30_encoding.md R110, R104, R107, 60_exceptions.md R223: `Exec(w)` with its priority, and the whole
effect of the two dispatch errors. The error record is the model's (log entry 5). -/
def Obligations.ExecOfWordDispatchesByOpAndReservedBits : Prop :=
  ∀ (w : Word) (s : State),
    (12 ≤ w.toNat % 16 → execWord w s = .next (afterError 1 .illop s)) ∧
    (w.toNat % 16 < 12 → 32 ≤ w.toNat → execWord w s = .next (afterError 2 .rsvd s)) ∧
    (w.toNat < 32 → ∀ i,
      (opcodeMap (if 16 ≤ w.toNat then .dec else .sec))[w.toNat % 16]? = some i →
        execWord w s = exec i s)

/-- 60_exceptions.md R221, R222, R223: which command word raises which code, checked in that order; an
error has the whole effect of R222 and nothing more; a word that raises none leaves ERR, ERRCODE and the
record alone. The record is the model's (log entry 5). -/
def Obligations.CommandErrorsFollowTheCauseTable : Prop :=
  ∀ (w : Word) (s : State),
    let illop := 12 ≤ w.toNat % 16
    let rsvd := ¬illop ∧ 32 ≤ w.toNat
    let upovf := w.toNat < 32 ∧ w.toNat % 16 = 9 ∧ 16 < s.uq.length
    let upempty := w.toNat < 32 ∧ w.toNat % 16 = 10 ∧ s.uq.length = 0
    (illop → execWord w s = .next (afterError 1 .illop s)) ∧
    (rsvd → execWord w s = .next (afterError 2 .rsvd s)) ∧
    (upovf → execWord w s = .next (afterError 3 .upovf s)) ∧
    (upempty → execWord w s = .next (afterError 4 .upempty s)) ∧
    (¬illop → ¬rsvd → ¬upovf → ¬upempty →
      ∃ t, execWord w s = .next t ∧ t.status.err = s.status.err ∧
        t.status.errcode = s.status.errcode ∧ t.errLog = s.errLog)

/-- 30_encoding.md R112: each pseudo-instruction, as the host's next accesses, runs as its expansion. -/
def Obligations.PseudoInstructionsRunAsTheirExpansion : Prop :=
  ∀ (v : Variant) (x : Word) (s : State),
    let run (n : Nat) (es : List HostEvent) :=
      Host.Core.run Sys2Proof.core n { s with pending := es ++ s.pending }
    run 1 clrErr = .next { s with status := { s.status with err := false, errcode := 0 } } ∧
    run 2 (encB v x) = exec (.enc v) { s with data := BitVec.ofNat 8 x.toNat } ∧
    run 2 (decW v x) = exec (.decode v) { s with cw := BitVec.ofNat 16 x.toNat } ∧
    run 2 (pushB x) = exec .upush { s with data := BitVec.ofNat 8 x.toNat } ∧
    run 2 (packB x) = exec .packdata { s with data := BitVec.ofNat 8 x.toNat }

/-- 60_exceptions.md R234, 70_reset_and_hazards.md R252: between host accesses the state is held. The
idle step is the model's choice (log entry 2). -/
def Obligations.StepWithNoPendingAccessHoldsTheState : Prop :=
  ∀ s : State, s.pending = [] → step s = .next s

/-- 20_memory.md R71: a step stops exactly when the next access is unsupported, and then with the fault
of that name; it never stops for another reason and never refuses. R71 says only that such an access has
no step: that the stop is a fault of this name and never a refusal is log entry 4 (DEDUCED), and that an
idle step and a RESET step never stop is the model's choice (log entries 2 and 6). -/
def Obligations.StepStopsExactlyOnUnsupportedAccess : Prop :=
  ∀ s : State,
    (∀ r, step s ≠ .refused r) ∧
    ((∃ f, step s = .fault f) ↔
      ∃ rest bytes off, Unsupported bytes off ∧
        (s.pending = .read bytes off :: rest ∨ ∃ w, s.pending = .write bytes off w :: rest)) ∧
    ∀ f, step s = .fault f → f = .unsupportedAccess

/-- 20_memory.md R82, R71: a host that issues only supported accesses gets them all performed, one a
step; nothing is left outstanding. -/
def Obligations.SupportedAccessesAllComplete : Prop :=
  ∀ s : State, HostBehaves s →
    ∃ t, Host.Core.run Sys2Proof.core s.pending.length s = .next t ∧ t.pending = []

/-- 20_memory.md R72: an accepted read changes nothing of the core, whatever the register; the host
gets the register's value. -/
def Obligations.ReadHasNoSideEffect : Prop :=
  ∀ (s : State) (rest : List HostEvent) (off : Nat),
    s.pending = .read 4 off :: rest → off % 4 = 0 → off < 0x100 →
      step s = .next { s with pending := rest, reads := s.reads ++ [busRead off s] }

/-- 10_state.md R34 to R48, 20_memory.md R72, R77: the value each register shows, as a number. -/
def Obligations.RegisterReadValues : Prop :=
  ∀ s : State,
    (busRead 0x04 s).toNat =
      s.status.lastop.toNat * 4096 + s.status.errcode.toNat * 512 + s.status.err.toNat * 256 +
        s.status.vlast.bit.toNat * 16 + s.status.pad.toNat * 8 + s.status.uncorr.toNat * 4 +
        s.status.corr.toNat * 2 + s.status.synnz.toNat ∧
    (busRead 0x08 s).toNat = s.data.toNat ∧
    (busRead 0x0C s).toNat = s.cw.toNat ∧
    (busRead 0x10 s).toNat = s.syn.toNat ∧
    (busRead 0x14 s).toNat =
      (match s.loc.result with
        | .none => 0
        | .single a => a.val * 256 + 1
        | .pair a b => b.val * 4096 + a.val * 256 + 2) + s.loc.lv.bit.toNat * 4 ∧
    (busRead 0x18 s).toNat =
      s.pkout.nout.toNat * 65536 + s.pkout.b1.toNat * 256 + s.pkout.b0.toNat ∧
    (s.pq.length ≤ 7 → s.uq.length ≤ 24 →
      (busRead 0x1C s).toNat = s.uq.length * 256 + s.pq.length) ∧
    busRead 0x20 s = 0x47463201 ∧
    busRead 0x00 s = 0 ∧
    ∀ off, 0x24 ≤ off → busRead off s = 0

/-- 20_memory.md R73 to R77: the effect of an accepted write at each offset but CMD. That the step takes
one access off the host's list is the model's choice (log entry 2). -/
def Obligations.HostWriteEffectsByOffset : Prop :=
  ∀ (s : State) (rest : List HostEvent) (off : Nat) (w : Word),
    s.pending = .write 4 off w :: rest → off % 4 = 0 → off < 0x100 → off ≠ 0x00 →
      step s = .next
        { s with
          pending := rest
          status :=
            if off = 0x04 ∧ w.getLsbD 8 = true then { s.status with err := false, errcode := 0 }
            else s.status
          data := if off = 0x08 then BitVec.ofNat 8 w.toNat else s.data
          cw := if off = 0x0C then BitVec.ofNat 16 w.toNat else s.cw }

/-- 20_memory.md R81: repeating a write to any register but CMD gives the same state as writing once. -/
def Obligations.RepeatedRegisterWriteIsIdempotent : Prop :=
  ∀ (off : Nat) (w : Word) (s t : State),
    off ≠ 0x00 → busWrite off w s = .next t → busWrite off w t = .next t

/-- 70_reset_and_hazards.md R250: the reset value of every piece of the core's state, and what a read of
each register then shows. -/
def Obligations.ResetLeavesEveryRegisterAtItsValue : Prop :=
  State.reset.data = 0 ∧ State.reset.cw = 0 ∧ State.reset.syn = 0 ∧
  State.reset.loc = { result := .none, lv := .sec } ∧
  State.reset.pq = [] ∧ State.reset.uq = [] ∧
  (∀ off ∈ [0x00, 0x04, 0x08, 0x0C, 0x10, 0x14, 0x18, 0x1C], busRead off State.reset = 0) ∧
  busRead 0x20 State.reset = 0x47463201

/-- 70_reset_and_hazards.md R250, R251: RESET, taken between accesses, gives every piece of the core's
state its reset value whatever it was. That the host's lists and the error record stay is the model's
choice (log entries 2, 5, 6). -/
def Obligations.ResetEventRestoresTheCore : Prop :=
  ∀ (s : State) (rest : List HostEvent), s.pending = .reset :: rest →
    step s = .next
      { status :=
          { synnz := false, corr := false, uncorr := false, pad := false, vlast := .sec,
            err := false, errcode := 0, lastop := 0 },
        data := 0, cw := 0, syn := 0, loc := { result := .none, lv := .sec },
        pkout := { b0 := 0, b1 := 0, nout := 0 }, pq := [], uq := [],
        pending := rest, reads := s.reads, errLog := s.errLog }

/-! ### The codec commands -/

/-- 40_codec.md R150: NOP completes and changes LASTOP alone. -/
def Obligations.NopCompletesAndWritesLastopOnly : Prop :=
  ∀ s : State, exec .nop s = .next { s with status := { s.status with lastop := 0x0 } }

/-- 40_codec.md R151, R133: ENC.V completes; CW holds the data bits unchanged in positions 0 to 7,
parity bit i as the XOR over the data columns j of H[i][j]·d[j], and 0 above the code word; beside CW
only VLAST and LASTOP change. -/
def Obligations.EncCompletesWithSystematicCodeWord : Prop :=
  ∀ (v : Variant) (s : State), ∃ c : BitVec 16,
    exec (.enc v) s =
      .next { s with cw := c, status := { s.status with vlast := v, lastop := 0x1 } } ∧
    (∀ p < 8, c.getLsbD (v.width - 1 - p) = s.data.getLsbD (7 - p)) ∧
    (∀ i < v.parity, c.getLsbD (v.parity - 1 - i) =
      xorSum 8 fun j => entry (Config.matrices.of v) i j && s.data.getLsbD (7 - j)) ∧
    ∀ k, v.width ≤ k → c.getLsbD k = false

/-- 40_codec.md R152, R134: SYND.V completes; syndrome bit i is the XOR over all columns j of
H[i][j]·c[j], zero-extended into SYN; SYNNZ says whether it is nonzero; beside SYN only SYNNZ, VLAST and
LASTOP change. -/
def Obligations.SyndCompletesWithSyndromeOfCw : Prop :=
  ∀ (v : Variant) (s : State), ∃ S : BitVec 8,
    exec (.synd v) s =
      .next
        { s with
          syn := S
          status := { s.status with synnz := decide (S ≠ 0), vlast := v, lastop := 0x2 } } ∧
    (∀ i < v.parity, S.getLsbD (v.parity - 1 - i) =
      xorSum v.width fun j =>
        entry (Config.matrices.of v) i j && s.cw.getLsbD (v.width - 1 - j)) ∧
    ∀ k, v.parity ≤ k → S.getLsbD k = false

/-- 40_codec.md R153, R136, R137, R138: LOCATE.V completes; LOC holds the locator result of
SYN[R-1:0] and LV = V; UNCORR says that a nonzero syndrome matched nothing; beside LOC only UNCORR, VLAST
and LASTOP change. -/
def Obligations.LocateCompletesWithFirstMatch : Prop :=
  ∀ (v : Variant) (s : State), ∃ L : Locator,
    exec (.locate v) s =
      .next
        { s with
          loc := { result := L, lv := v }
          status :=
            { s.status with
              uncorr := decide (syndromeOf v s.syn ≠ 0 ∧ L = .none), vlast := v, lastop := 0x3 } } ∧
    LocatesTo Config.matrices v (syndromeOf v s.syn) L

/-- 40_codec.md R154, R139: CORRECT completes for every LOC value the core can hold (10_state.md R40); it
flips exactly the located bits of CW in the variant LOC.LV, keeps all others, and beside CW changes only
CORR, VLAST and LASTOP. -/
def Obligations.CorrectCompletesFlippingLocatedBits : Prop :=
  ∀ s : State, s.loc.Reachable → ∃ c : BitVec 16,
    exec .correct s =
      .next
        { s with
          cw := c
          status :=
            { s.status with
              corr := decide (s.loc.result ≠ .none), vlast := s.loc.lv, lastop := 0x4 } } ∧
    ∀ k < 16, c.getLsbD k = Bool.xor (s.cw.getLsbD k) (flips s.loc.lv s.loc.result k)

/-- 40_codec.md R154: issuing CORRECT twice flips the same bits twice and so restores CW. -/
def Obligations.CorrectTwiceRestoresCw : Prop :=
  ∀ s : State, ∃ t u, exec .correct s = .next t ∧ exec .correct t = .next u ∧ u.cw = s.cw

/-- 40_codec.md R155, R140: DECODE.V completes; SYN, LOC, CW and DATA hold the syndrome of the received
word, its locator result, the corrected word in place, and the data bits of that; SYNNZ, CORR, UNCORR,
VLAST and LASTOP follow; nothing else changes. -/
def Obligations.DecodeCompletesWithCorrectedData : Prop :=
  ∀ (v : Variant) (s : State), ∃ (S : BitVec 8) (L : Locator) (c : BitVec 16) (d : BitVec 8),
    exec (.decode v) s =
      .next
        { s with
          syn := S, loc := { result := L, lv := v }, cw := c, data := d
          status :=
            { s.status with
              synnz := decide (S ≠ 0), corr := decide (L ≠ .none)
              uncorr := decide (S ≠ 0 ∧ L = .none), vlast := v, lastop := 0x5 } } ∧
    (∀ i < v.parity, S.getLsbD (v.parity - 1 - i) =
      xorSum v.width fun j =>
        entry (Config.matrices.of v) i j && s.cw.getLsbD (v.width - 1 - j)) ∧
    (∀ k, v.parity ≤ k → S.getLsbD k = false) ∧
    LocatesTo Config.matrices v S L ∧
    (∀ k < 16, c.getLsbD k = Bool.xor (s.cw.getLsbD k) (flips v L k)) ∧
    ∀ p < 8, d.getLsbD (7 - p) = c.getLsbD (v.width - 1 - p)

/-- 40_codec.md R155, 70_reset_and_hazards.md R261: DECODE.V equals SYND.V, LOCATE.V, CORRECT, then the
extraction of DATA, except that those leave LASTOP at 0x4 and never write DATA. -/
def Obligations.DecodeEqualsSyndLocateCorrectExtract : Prop :=
  ∀ (v : Variant) (s : State), ∃ a b c,
    exec (.synd v) s = .next a ∧ exec (.locate v) a = .next b ∧ exec .correct b = .next c ∧
    c.data = s.data ∧ c.status.lastop = 0x4 ∧
    exec (.decode v) s =
      .next
        { c with
          data := BitVec.ofNat 8 (c.cw.toNat / 2 ^ v.parity)
          status := { c.status with lastop := 0x5 } }

/-- 40_codec.md R155, 70_reset_and_hazards.md R263: a zero word decodes to DATA = 0 with SYNNZ = 0 for
every matrix, so also for this core's. -/
def Obligations.ZeroWordDecodesToZeroData : Prop :=
  ∀ (H : Matrices) (v : Variant) (s : State), s.cw.toNat % 2 ^ v.width = 0 →
    decodeEffect H v s =
      { s with
        syn := 0, loc := { result := .none, lv := v }, data := 0
        status :=
          { s.status with
            synnz := false, corr := false, uncorr := false, vlast := v, lastop := 0x5 } }

/-! ### The codec as mathematics: for every matrix, or under the predicates of 40_codec.md R132 -/

/-- 40_codec.md R135: the linearity laws of the syndrome. -/
def Obligations.SyndromeIsLinear : Prop :=
  ∀ (H : Matrices) (v : Variant),
    (∀ c e : BitVec v.width, syn H v (c ^^^ e) = syn H v c ^^^ syn H v e) ∧
    syn H v 0 = 0 ∧
    (∀ p < v.width, syn H v (positionMask v.width p) = col (H.of v) p) ∧
    ∀ p < v.width, ∀ q < v.width, p ≠ q →
      syn H v (positionMask v.width p ||| positionMask v.width q) =
        col (H.of v) p ^^^ col (H.of v) q

/-- 40_codec.md R132: parity columns that form the identity are sufficient for WF_SYS. -/
def Obligations.IdentityParityColumnsGiveWfSys : Prop :=
  ∀ (H : Matrices) (v : Variant),
    (∀ k < v.parity, (col (H.of v) (8 + k)).toNat = 2 ^ (v.parity - 1 - k)) → WfSys H v

/-- 40_codec.md R141(c): under WF_SYS a code word decodes without error to its data. -/
def Obligations.CleanCodeWordRoundTrips : Prop :=
  ∀ (H : Matrices) (v : Variant), WfSys H v → ∀ d : Byte,
    decodeWord H v (enc H v d) = (0, .none, enc H v d, d)

/-- 40_codec.md R141(a): under WF_SYS, WF_NZ and WF_DIST_SEC, SEC corrects every single-bit error, on
the machine: encode, flip position p of CW, decode. -/
def Obligations.SecCorrectsEverySingleBitError : Prop :=
  ∀ H : Matrices, WfSys H .sec → WfNz H .sec → WfDistSec H →
    ∀ (s : State) (p : Fin 12),
      let t := runCommand H (.enc .sec) s
      let u := runCommand H (.decode .sec) (putCw (t.cw ^^^ BitVec.twoPow 16 (11 - p.val)) t)
      u.data = s.data ∧ u.cw = t.cw ∧ u.loc = { result := .single p, lv := .sec } ∧
        u.status.synnz = true ∧ u.status.corr = true ∧ u.status.uncorr = false

/-- 40_codec.md R141(b): under WF_SYS(DEC), DEC corrects the double error (p, q) if (p, q) is the
lexicographically first pair with its XOR and that XOR is nonzero. The last premise is not in R141(b); see
`DecDoubleErrorGuaranteeWithoutNonzeroPremise`. -/
def Obligations.DecCorrectsFirstMatchingPair : Prop :=
  ∀ H : Matrices, WfSys H .dec → ∀ (s : State) (p q : Fin 16), p < q → pairSum H p q ≠ 0 →
    (∀ a ∈ columnPairs, pairSum H a.1 a.2 = pairSum H p q → p < a.1 ∨ p = a.1 ∧ q ≤ a.2) →
      let t := runCommand H (.enc .dec) s
      let e := BitVec.twoPow 16 (15 - p.val) ^^^ BitVec.twoPow 16 (15 - q.val)
      let u := runCommand H (.decode .dec) (putCw (t.cw ^^^ e) t)
      u.data = s.data ∧ u.cw = t.cw ∧ u.loc = { result := .pair p q, lv := .dec }

/-- 40_codec.md R141(b) word for word, without the premise that the pair's XOR is nonzero. Expected to
FAIL: where two columns are equal the error has a zero syndrome, LOCATE answers NONE (R138), and a
flipped data bit stays flipped. -/
def Obligations.DecDoubleErrorGuaranteeWithoutNonzeroPremise : Prop :=
  ∀ H : Matrices, WfSys H .dec → ∀ (d : Byte) (p q : Fin 16), p < q →
    (∀ a ∈ columnPairs, pairSum H a.1 a.2 = pairSum H p q → p < a.1 ∨ p = a.1 ∧ q ≤ a.2) →
      (decodeWord H .dec
        (enc H .dec d ^^^ positionMask Variant.dec.width p ^^^ positionMask Variant.dec.width q)).2.2.2 = d

/-- 40_codec.md R141(b), R132: under WF_SYS(DEC) and WF_PAIR_DEC, all 120 double errors are corrected. -/
def Obligations.DecCorrectsEveryDoubleErrorUnderWfPair : Prop :=
  ∀ H : Matrices, WfSys H .dec → WfPairDec H → ∀ (d : Byte) (p q : Fin 16), p < q →
    decodeWord H .dec (enc H .dec d ^^^ positionMask Variant.dec.width p ^^^ positionMask Variant.dec.width q) =
      (pairSum H p q, .pair p q, enc H .dec d, d)

/-- 40_codec.md R142: a single-bit error in DEC is never located as such: the pair search runs on
col(p), and the data is right exactly when p is a parity position and no flipped position is a data
position. It rests on 92_eei_decisions.md D21: the spec follows the source's section 4.3, whose DEC
locator matches pairs only. -/
def Obligations.DecSingleBitErrorIsNotCorrected : Prop :=
  ∀ H : Matrices, WfSys H .dec → WfNz H .dec → ∀ (d : Byte) (p : Fin 16),
    let r := decodeWord H .dec (enc H .dec d ^^^ positionMask Variant.dec.width p)
    r.1 = col H.dec p ∧ r.2.1 = locDec H.dec (col H.dec p) ∧ (∀ a, r.2.1 ≠ .single a) ∧
    (∀ a b, r.2.1 = .pair a b → p ≠ a ∧ p ≠ b) ∧
    (r.2.2.2 = d ↔ 8 ≤ p.val ∧ ∀ a b, r.2.1 = .pair a b → 8 ≤ a.val ∧ 8 ≤ b.val)

/-- 40_codec.md R144: a double error in SEC either matches one column, and the decoder flips a third
position, or matches none and passes through. -/
def Obligations.SecDoubleErrorIsMiscorrectedOrPassedThrough : Prop :=
  ∀ H : Matrices, WfSys H .sec → WfNz H .sec → WfDistSec H → ∀ (d : Byte) (p q : Fin 12), p ≠ q →
    let c := enc H .sec d ^^^ positionMask Variant.sec.width p ^^^ positionMask Variant.sec.width q
    let r := decodeWord H .sec c
    r.1 = col H.sec p ^^^ col H.sec q ∧ r.1 ≠ 0 ∧
    ((∃ k : Fin 12, k ≠ p ∧ k ≠ q ∧ col H.sec k = r.1 ∧ r.2.1 = .single k ∧
        r.2.2.1 = c ^^^ positionMask Variant.sec.width k) ∨
      ((∀ k : Fin 12, col H.sec k ≠ r.1) ∧ r.2.1 = .none ∧ r.2.2.1 = c))

/-! ### The stream commands -/

/-- 41_stream.md R182, R181: PACKCW.V completes; the stream PQ ++ bits_N(CW) is cut into whole bytes in
PKOUT and the rest in PQ; only VLAST and LASTOP change beside them. -/
def Obligations.PackcwCompletesCuttingTheStream : Prop :=
  ∀ (v : Variant) (s : State), s.pq.length ≤ 7 → ∃ p q,
    exec (.packcw v) s =
      .next
        { s with pkout := p, pq := q, status := { s.status with vlast := v, lastop := 0x6 } } ∧
    PacksTo (s.pq ++ cwBits v s.cw) p q

/-- 41_stream.md R183, R181: PACKDATA completes; NOUT is always 1; only LASTOP changes beside PKOUT and
PQ. -/
def Obligations.PackdataCompletesOneByte : Prop :=
  ∀ s : State, s.pq.length ≤ 7 → ∃ p q,
    exec .packdata s =
      .next { s with pkout := p, pq := q, status := { s.status with lastop := 0x7 } } ∧
    PacksTo (s.pq ++ byteBits s.data) p q ∧ p.nout = 1 ∧ q.length = s.pq.length

/-- 41_stream.md R184: FLUSH completes; a residue is padded with zero bits to one byte, an empty one
emits nothing; PQ is then empty; only LASTOP changes beside. -/
def Obligations.FlushCompletesPaddingTheResidue : Prop :=
  ∀ s : State, s.pq.length ≤ 7 → ∃ p,
    exec .flush s =
      .next { s with pkout := p, pq := [], status := { s.status with lastop := 0x8 } } ∧
    PacksTo (s.pq ++ padBits s.pq.length) p [] ∧ (p.nout = 0 ↔ s.pq = [])

/-- 41_stream.md R185: with at most 16 bits queued UPUSH completes: DATA's bits, bit 7 first, go to the
end of UQ and only LASTOP changes beside; with more than 16 it raises UPOVF, code 3, and changes nothing
else but the model's error record (log entry 5). -/
def Obligations.UpushAppendsDataOrRaisesUpovf : Prop :=
  ∀ s : State,
    (s.uq.length ≤ 16 →
      exec .upush s =
        .next
          { s with uq := s.uq ++ byteBits s.data, status := { s.status with lastop := 0x9 } }) ∧
    (16 < s.uq.length → exec .upush s = .next (afterError 3 .upovf s))

/-- 41_stream.md R186: with a nonempty queue UPULL.V completes: the first N bits, zero-padded on the
right when fewer are queued, go to CW with zeros above them; PAD says whether it was short; only VLAST
and LASTOP change beside UQ, CW and PAD. On an empty queue it raises UPEMPTY, code 4, and changes nothing
else but the model's error record (log entry 5). -/
def Obligations.UpullTakesPaddedWordOrRaisesUpempty : Prop :=
  ∀ (v : Variant) (s : State),
    (s.uq ≠ [] → ∃ c : BitVec 16,
      exec (.upull v) s =
        .next
          { s with
            uq := s.uq.drop v.width, cw := c
            status :=
              { s.status with
                pad := decide (s.uq.length < v.width), vlast := v, lastop := 0xA } } ∧
      (∀ p < v.width, c.getLsbD (v.width - 1 - p) = s.uq.getD p false) ∧
      ∀ k, v.width ≤ k → c.getLsbD k = false) ∧
    (s.uq = [] → exec (.upull v) s = .next (afterError 4 .upempty s))

/-- 41_stream.md R187: SCLR completes, clears PQ, UQ, PKOUT and PAD, and changes LASTOP alone beside. -/
def Obligations.SclrCompletesClearingTheStream : Prop :=
  ∀ s : State,
    exec .sclr s =
      .next
        { s with
          pq := [], uq := [], pkout := { b0 := 0, b1 := 0, nout := 0 }
          status := { s.status with pad := false, lastop := 0xB } }

/-- 41_stream.md R188(a): after SCLR, writing each byte to DATA and issuing PACKDATA shows just that byte
in PKOUT each time and leaves PQ empty. -/
def Obligations.PackedDataBytesComeOutUnchanged : Prop :=
  ∀ (H : Matrices) (bs : List Byte) (s : State),
    let a := bs.foldl (fun a b =>
      let t := runCommand H .packdata (putData b a.1)
      (t, a.2 ++ completedBytes t)) (runCommand H .sclr s, [])
    a.2 = bs ∧ a.1.pq = []

/-- 41_stream.md R188(b): appending L words with PACKCW.V and flushing emits ceil(N·L/8) bytes whose bit
stream is that of the words followed by the zero pad. -/
def Obligations.PackedWordsStreamIsTheirConcatenation : Prop :=
  ∀ (H : Matrices) (v : Variant) (ws : List (BitVec 16)) (s : State), s.pq = [] →
    let a := packWords H v ws s
    let t := runCommand H .flush a.1
    let out := a.2 ++ completedBytes t
    out.length = (v.width * ws.length + 7) / 8 ∧
    out.flatMap byteBits = ws.flatMap (cwBits v) ++ padBits (v.width * ws.length)

/-- 41_stream.md R188(c): pushing bytes whose bit stream is that of L words and a zero pad, and pulling
while a word is queued, returns the words in order; the pad bits remain in UQ. The pull loop, bounded by
two rounds a byte, is the model's choice (log entry 13). -/
def Obligations.UnpackedStreamReturnsTheWords : Prop :=
  ∀ (H : Matrices) (v : Variant) (ws : List (BitVec 16)) (bs : List Byte) (s : State),
    s.uq = [] →
    bs.flatMap byteBits = ws.flatMap (cwBits v) ++ padBits (v.width * ws.length) →
      (unpackWords H v bs s).2 = ws.map (fun w => (w.setWidth v.width).setWidth 16) ∧
      (unpackWords H v bs s).1.uq = padBits (v.width * ws.length) ∧
      (unpackWords H v bs s).1.errLog = s.errLog

/-- 41_stream.md R191: under WF_SYS(V), DecodeFile of EncodeFile returns the file for DEC, for SEC with
an even length, and for SEC with FRAMER_DROP_PAD; an odd SEC length without it gains one byte 0x00.
The framer as a host procedure with a loop bounded by 24 rounds is the model's choice (log entry 13). -/
def Obligations.FileRoundTrip : Prop :=
  ∀ (H : Matrices) (v : Variant) (dropPad : Bool) (B : List Byte) (s s' : State), WfSys H v →
    (decodeFile H v dropPad (encodeFile H v B s).2 s').2 =
      if v = .sec ∧ B.length % 2 = 1 ∧ dropPad = false then B ++ [0] else B

/-- 70_reset_and_hazards.md R264, 41_stream.md R185, R190: the reference framer never overflows or
underflows the unpacker, whatever bytes it is given and whatever the matrices. The bounded framer and the
error record are the model's choices (log entries 13 and 5). -/
def Obligations.DecodeFileRaisesNoCommandError : Prop :=
  ∀ (H : Matrices) (v : Variant) (dropPad : Bool) (E : List Byte) (s : State),
    (decodeFile H v dropPad E s).1.errLog = s.errLog

/-! ### The whole machine -/

/-- The invariant holds at reset. -/
def Obligations.InvariantHoldsAtReset : Prop := Invariant State.reset

/-- 10_state.md R39, R40, R45 to R47, 41_stream.md R188(e), 60_exceptions.md R221, R222: every step from
a state that meets the invariant leads to one that meets it. -/
def Obligations.EveryStepKeepsTheInvariant : Prop :=
  ∀ s t : State, Invariant s → step s = .next t → Invariant t

/-- 10_state.md R42: a command that executes leaves every STATUS field as its row of the table says; one
in error changes ERR and ERRCODE alone. -/
def Obligations.StatusFieldsFollowTheTable : Prop :=
  ∀ (i : Instr) (s : State), ∃ t, exec i s = .next t ∧
    (¬raisesOwnError i s → t.status = statusAfter i s t) ∧
    (raisesOwnError i s → ∃ code, t.status = { s.status with err := true, errcode := code })

/-- 10_state.md R34 to R38, R45 to R47, 60_exceptions.md R222: which command can change which register,
queue or record; no command touches the host agent. -/
def Obligations.OnlyTheNamedCommandsChangeARegister : Prop :=
  ∀ (i : Instr) (s t : State), exec i s = .next t →
    (t.data ≠ s.data → ∃ v, i = .decode v) ∧
    (t.cw ≠ s.cw → i = .correct ∨ ∃ v, i = .enc v ∨ i = .decode v ∨ i = .upull v) ∧
    (t.syn ≠ s.syn → ∃ v, i = .synd v ∨ i = .decode v) ∧
    (t.loc ≠ s.loc → ∃ v, i = .locate v ∨ i = .decode v) ∧
    (t.pkout ≠ s.pkout → i = .packdata ∨ i = .flush ∨ i = .sclr ∨ ∃ v, i = .packcw v) ∧
    (t.pq ≠ s.pq → i = .packdata ∨ i = .flush ∨ i = .sclr ∨ ∃ v, i = .packcw v) ∧
    (t.uq ≠ s.uq → i = .upush ∨ i = .sclr ∨ ∃ v, i = .upull v) ∧
    (t.errLog ≠ s.errLog → raisesOwnError i s) ∧
    (t.status.err ≠ s.status.err ∨ t.status.errcode ≠ s.status.errcode → raisesOwnError i s) ∧
    t.pending = s.pending ∧ t.reads = s.reads

/-- 10_state.md R50, 60_exceptions.md R224: no command reads STATUS: two states that differ in STATUS
alone (ERR set or clear among it) end with the same registers and queues. -/
def Obligations.NoCommandResultDependsOnStatus : Prop :=
  ∀ (i : Instr) (s : State) (st : Status), ∃ t t',
    exec i s = .next t ∧ exec i { s with status := st } = .next t' ∧
    { t' with status := t.status } = t

/-- 10_state.md R36: CW[15:12] never influences a SEC result; ENC.SEC and UPULL.SEC write it 0, CORRECT
and DECODE in SEC keep it. -/
def Obligations.SecResultsIgnoreUpperCwBits : Prop :=
  ∀ (i : Instr) (s : State) (x : BitVec 16),
    (variantOf i = some .sec ∨ i = .correct ∧ s.loc.lv = .sec) →
    x.setWidth 12 = s.cw.setWidth 12 →
      ∃ t t', exec i s = .next t ∧ exec i { s with cw := x } = .next t' ∧
        t'.cw.setWidth 12 = t.cw.setWidth 12 ∧ { t' with cw := t.cw } = t ∧
        (i = .enc .sec ∨ i = .upull .sec ∧ s.uq ≠ [] → ∀ k, 12 ≤ k → t.cw.getLsbD k = false) ∧
        (i = .correct ∨ i = .decode .sec → ∀ k, 12 ≤ k → t.cw.getLsbD k = s.cw.getLsbD k)

/-- 10_state.md, opening, and 40_codec.md R155: what DECODE.V computes depends on the code word in CW
alone, on no earlier block. -/
def Obligations.DecodeDependsOnTheCodeWordAlone : Prop :=
  ∀ (v : Variant) (s s' : State), s'.cw.toNat % 2 ^ v.width = s.cw.toNat % 2 ^ v.width →
    ∃ t t', exec (.decode v) s = .next t ∧ exec (.decode v) s' = .next t' ∧
      t'.data = t.data ∧ t'.syn = t.syn ∧ t'.loc = t.loc ∧
      t'.cw.toNat % 2 ^ v.width = t.cw.toNat % 2 ^ v.width ∧
      t'.status.synnz = t.status.synnz ∧ t'.status.corr = t.status.corr ∧
      t'.status.uncorr = t.status.uncorr

/-- 60_exceptions.md R224, R222: ERR and the first code stay through every step but RESET and a STATUS
write with bit 8 set. -/
def Obligations.ErrorFlagIsSticky : Prop :=
  ∀ s t : State, step s = .next t → s.status.err = true →
    (∀ e rest, s.pending = e :: rest → e ≠ .reset ∧ ∀ w, e = .write 4 0x04 w → w.getLsbD 8 = false) →
      t.status.err = true ∧ t.status.errcode = s.status.errcode

/-- 60_exceptions.md R224, 92_eei_decisions.md D9: the model's error record is never cleared (log entry
5): every step keeps it or adds one error at its end. -/
def Obligations.ErrorRecordOnlyGrows : Prop :=
  ∀ s t : State, step s = .next t → t.errLog = s.errLog ∨ ∃ e, t.errLog = s.errLog ++ [e]

end
end

