-- ==== Sys2Proof/Laws/Gf2.lean ====
section
/-! SUPPORT. The small laws of bit sequences, columns and the shared column loop. -/

namespace Sys2Proof.Machine

theorem parity_sec : Variant.sec.parity = 4 := rfl
theorem parity_dec : Variant.dec.parity = 8 := rfl
theorem width_sec : Variant.sec.width = 12 := rfl
theorem width_dec : Variant.dec.width = 16 := rfl

@[simp] theorem val_nil : val [] = 0 := rfl

theorem val_append_one (s : List Bool) (b : Bool) : val (s ++ [b]) = 2 * val s + b.toNat := by
  simp [val]

theorem val_lt (s : List Bool) : val s < 2 ^ s.length := by
  induction s using List.reverseRecOn with
  | nil => simp
  | append_singleton s b ih =>
    have hb : b.toNat ≤ 1 := Bool.toNat_le b
    rw [val_append_one, List.length_append, List.length_singleton, Nat.pow_succ]
    omega

@[simp] theorem length_bits {L : Nat} (x : BitVec L) : (bits x).length = L := by simp [bits]

@[simp] theorem length_zeros (k : Nat) : (zeros k).length = k := by simp [zeros]

@[simp] theorem getD_bits {L : Nat} (x : BitVec L) (p : Nat) : (bits x).getD p false = x.getMsbD p := by
  by_cases h : p < L
  · simp [bits, List.getD_eq_getElem?_getD, h]
  · simp [bits, List.getD_eq_getElem?_getD, h, BitVec.getMsbD_of_ge _ _ (Nat.le_of_not_lt h)]

/-- Bit k of a sequence's value, counted from its last position. -/
theorem testBit_val (s : List Bool) (k : Nat) :
    (val s).testBit k = if k < s.length then s.getD (s.length - 1 - k) false else false := by
  induction s using List.reverseRecOn generalizing k with
  | nil => simp
  | append_singleton s b ih =>
    rw [val_append_one]
    cases k with
    | zero =>
      have h0 : (2 * val s + b.toNat).testBit 0 = b := by
        cases b <;> simp [Nat.testBit_zero, Nat.add_mod]
      rw [h0]
      simp [List.getD_eq_getElem?_getD]
    | succ k =>
      have hs : (2 * val s + b.toNat).testBit (k + 1) = (val s).testBit k := by
        rw [Nat.testBit_succ]
        congr 1
        cases b <;> simp; omega
      rw [hs, ih]
      by_cases hk : k < s.length
      · have h1 : s.length + 1 - 1 - (k + 1) = s.length - 1 - k := by omega
        have h2 : s.length - 1 - k < s.length := by omega
        rw [if_pos hk, if_pos (by simpa using hk), List.length_append, List.length_singleton, h1]
        simp only [List.getD_eq_getElem?_getD, List.getElem?_append_left h2]
      · simp [hk]

/-- Position p of a sequence stored in a register of its own length. -/
theorem getMsbD_ofNat_val {L : Nat} (s : List Bool) (h : s.length = L) (p : Nat) :
    (BitVec.ofNat L (val s)).getMsbD p = s.getD p false := by
  subst h
  by_cases hp : p < s.length
  · have h1 : s.length - 1 - p < s.length := by omega
    have h2 : s.length - 1 - (s.length - 1 - p) = p := by omega
    rw [BitVec.getMsbD, BitVec.getLsbD_ofNat, testBit_val, h2]
    simp [hp, h1]
  · rw [BitVec.getMsbD_of_ge _ _ (Nat.le_of_not_lt hp)]
    simp [List.getD_eq_getElem?_getD, hp]

theorem ofNat_val_bits {L : Nat} (x : BitVec L) : BitVec.ofNat L (val (bits x)) = x :=
  BitVec.eq_of_getMsbD_eq fun p _ => by rw [getMsbD_ofNat_val _ (length_bits x), getD_bits]

theorem bits_ofNat_val (s : List Bool) : bits (BitVec.ofNat s.length (val s)) = s := by
  apply List.ext_getElem (by simp)
  intro p h1 h2
  have h := getMsbD_ofNat_val s rfl p
  simp only [bits, List.getElem_map, List.getElem_range, h]
  simp [List.getD_eq_getElem?_getD, h2]

/-- Row i of column j (00_scope.md R15). -/
theorem getMsbD_col {r n : Nat} (H : GfMatrix r n) (i j : Nat) :
    (col H j).getMsbD i = (decide (i < r) && entry H i j) := by
  rw [col, getMsbD_ofNat_val _ (by simp)]
  by_cases hi : i < r <;> simp [List.getD_eq_getElem?_getD, hi]

theorem entry_of_lt {r n : Nat} (H : GfMatrix r n) {i j : Nat} (hi : i < r) (hj : j < n) :
    entry H i j = H[i][j] := by simp [entry, hi, hj]

/-- The first k' positions of the column loop, which the loop extends one position at a time. -/
def sumColumnsUpTo {r n k : Nat} (H : GfMatrix r n) (x : BitVec k) (k' : Nat) : BitVec r :=
  (List.range k').foldl (fun S j => if x.getMsbD j then S ^^^ col H j else S) 0

theorem sumColumns_eq {r n k : Nat} (H : GfMatrix r n) (x : BitVec k) :
    sumColumns H x = sumColumnsUpTo H x k := rfl

@[simp] theorem sumColumnsUpTo_zero {r n k : Nat} (H : GfMatrix r n) (x : BitVec k) :
    sumColumnsUpTo H x 0 = 0 := rfl

theorem sumColumnsUpTo_succ {r n k : Nat} (H : GfMatrix r n) (x : BitVec k) (m : Nat) :
    sumColumnsUpTo H x (m + 1) =
      if x.getMsbD m then sumColumnsUpTo H x m ^^^ col H m else sumColumnsUpTo H x m := by
  simp [sumColumnsUpTo, List.range_succ]

/-- Every pair of the two loops, and only those (40_codec.md R137). -/
theorem mem_columnPairs (p : Fin 16 × Fin 16) : p ∈ columnPairs ↔ p.1 < p.2 := by
  obtain ⟨a, b⟩ := p
  simp [columnPairs]

@[simp] theorem locate_zero (H : Matrices) (v : Variant) : locate H v 0 = .none := by simp [locate]

theorem getMsbD_positionMask (n p q : Nat) :
    (positionMask n p).getMsbD q = (decide (p < n) && decide (q = p)) := by
  by_cases hp : p < n
  · by_cases hq : q < n
    · have h : n - 1 - p < n ∧ (n - 1 - p = n - 1 - q ↔ q = p) := by omega
      rw [positionMask, if_pos hp, BitVec.getMsbD, BitVec.getLsbD_twoPow]
      simp [hp, hq, h.1, h.2]
    · rw [BitVec.getMsbD_of_ge _ _ (Nat.le_of_not_lt hq)]
      simp
      omega
  · simp [positionMask, hp]

end Sys2Proof.Machine
end

