-- ==== Sys2Proof/Laws/State.lean ====
section
/-! SUPPORT. What each named update leaves in each field: one lemma per field per update, true by
unfolding, so that no later proof unfolds a record update. -/

namespace Sys2Proof.Machine

/-! ### STATUS updates -/

variable (st : Status) (op : BitVec 4) (v : Variant)

@[simp] theorem Status.executed_synnz : (st.executed op).synnz = st.synnz := rfl
@[simp] theorem Status.executed_corr : (st.executed op).corr = st.corr := rfl
@[simp] theorem Status.executed_uncorr : (st.executed op).uncorr = st.uncorr := rfl
@[simp] theorem Status.executed_pad : (st.executed op).pad = st.pad := rfl
@[simp] theorem Status.executed_vlast : (st.executed op).vlast = st.vlast := rfl
@[simp] theorem Status.executed_err : (st.executed op).err = st.err := rfl
@[simp] theorem Status.executed_errcode : (st.executed op).errcode = st.errcode := rfl
@[simp] theorem Status.executed_lastop : (st.executed op).lastop = op := rfl

@[simp] theorem Status.executedFor_synnz : (st.executedFor v op).synnz = st.synnz := rfl
@[simp] theorem Status.executedFor_corr : (st.executedFor v op).corr = st.corr := rfl
@[simp] theorem Status.executedFor_uncorr : (st.executedFor v op).uncorr = st.uncorr := rfl
@[simp] theorem Status.executedFor_pad : (st.executedFor v op).pad = st.pad := rfl
@[simp] theorem Status.executedFor_vlast : (st.executedFor v op).vlast = v := rfl
@[simp] theorem Status.executedFor_err : (st.executedFor v op).err = st.err := rfl
@[simp] theorem Status.executedFor_errcode : (st.executedFor v op).errcode = st.errcode := rfl
@[simp] theorem Status.executedFor_lastop : (st.executedFor v op).lastop = op := rfl

theorem Status.hostWrite_of_set {w : Word} (h : w.getLsbD 8 = true) :
    st.hostWrite w = { st with err := false, errcode := 0 } := by simp [Status.hostWrite, h]
theorem Status.hostWrite_of_clear {w : Word} (h : w.getLsbD 8 = false) : st.hostWrite w = st := by
  rw [Status.hostWrite, h]; rfl

/-! ### Raising an error -/

variable (s : State) (e : CmdError)

@[simp] theorem raiseError_data : (raiseError e s).data = s.data := rfl
@[simp] theorem raiseError_cw : (raiseError e s).cw = s.cw := rfl
@[simp] theorem raiseError_syn : (raiseError e s).syn = s.syn := rfl
@[simp] theorem raiseError_loc : (raiseError e s).loc = s.loc := rfl
@[simp] theorem raiseError_pkout : (raiseError e s).pkout = s.pkout := rfl
@[simp] theorem raiseError_pq : (raiseError e s).pq = s.pq := rfl
@[simp] theorem raiseError_uq : (raiseError e s).uq = s.uq := rfl
@[simp] theorem raiseError_pending : (raiseError e s).pending = s.pending := rfl
@[simp] theorem raiseError_reads : (raiseError e s).reads = s.reads := rfl
@[simp] theorem raiseError_errLog : (raiseError e s).errLog = s.errLog ++ [e] := rfl
@[simp] theorem raiseError_status : (raiseError e s).status =
    { s.status with
      err := true
      errcode := if s.status.err then s.status.errcode else errorCode e } := rfl

/-! ### Packer -/

variable (new : List Bool)

@[simp] theorem packAppend_status : (packAppend new s).status = s.status := rfl
@[simp] theorem packAppend_data : (packAppend new s).data = s.data := rfl
@[simp] theorem packAppend_cw : (packAppend new s).cw = s.cw := rfl
@[simp] theorem packAppend_syn : (packAppend new s).syn = s.syn := rfl
@[simp] theorem packAppend_loc : (packAppend new s).loc = s.loc := rfl
@[simp] theorem packAppend_uq : (packAppend new s).uq = s.uq := rfl
@[simp] theorem packAppend_pending : (packAppend new s).pending = s.pending := rfl
@[simp] theorem packAppend_reads : (packAppend new s).reads = s.reads := rfl
@[simp] theorem packAppend_errLog : (packAppend new s).errLog = s.errLog := rfl
@[simp] theorem packAppend_pq : (packAppend new s).pq =
    (s.pq ++ new).drop (8 * ((s.pq ++ new).length / 8)) := rfl

@[simp] theorem packFlush_pq : (packFlush s).pq = [] := by
  unfold packFlush
  split
  · rfl
  · rename_i h
    exact List.length_eq_zero_iff.mp (Nat.eq_zero_of_not_pos h)
@[simp] theorem packFlush_status : (packFlush s).status = s.status := by
  unfold packFlush; split <;> rfl
@[simp] theorem packFlush_data : (packFlush s).data = s.data := by unfold packFlush; split <;> rfl
@[simp] theorem packFlush_cw : (packFlush s).cw = s.cw := by unfold packFlush; split <;> rfl
@[simp] theorem packFlush_syn : (packFlush s).syn = s.syn := by unfold packFlush; split <;> rfl
@[simp] theorem packFlush_loc : (packFlush s).loc = s.loc := by unfold packFlush; split <;> rfl
@[simp] theorem packFlush_uq : (packFlush s).uq = s.uq := by unfold packFlush; split <;> rfl
@[simp] theorem packFlush_pending : (packFlush s).pending = s.pending := by
  unfold packFlush; split <;> rfl
@[simp] theorem packFlush_reads : (packFlush s).reads = s.reads := by
  unfold packFlush; split <;> rfl
@[simp] theorem packFlush_errLog : (packFlush s).errLog = s.errLog := by
  unfold packFlush; split <;> rfl

/-! ### Reset -/

@[simp] theorem resetCore_status : (resetCore s).status = .reset := rfl
@[simp] theorem resetCore_data : (resetCore s).data = 0 := rfl
@[simp] theorem resetCore_cw : (resetCore s).cw = 0 := rfl
@[simp] theorem resetCore_syn : (resetCore s).syn = 0 := rfl
@[simp] theorem resetCore_loc : (resetCore s).loc = { result := .none, lv := .sec } := rfl
@[simp] theorem resetCore_pkout : (resetCore s).pkout = .zero := rfl
@[simp] theorem resetCore_pq : (resetCore s).pq = [] := rfl
@[simp] theorem resetCore_uq : (resetCore s).uq = [] := rfl
@[simp] theorem resetCore_pending : (resetCore s).pending = s.pending := rfl
@[simp] theorem resetCore_reads : (resetCore s).reads = s.reads := rfl
@[simp] theorem resetCore_errLog : (resetCore s).errLog = s.errLog := rfl

end Sys2Proof.Machine
end

