-- ==== Sys2Proof/Laws/Ops.lean ====
section
/-! SUPPORT. One law per shared operation that says everything it can do; provers cite it instead of
unfolding the operation. -/

namespace Sys2Proof.Machine

/-- What a pull takes has the width asked for (41_stream.md R186). -/
@[simp] theorem length_pulledBits (n : Nat) (uq : List Bool) : (pulledBits n uq).length = n := by
  unfold pulledBits
  split <;> simp <;> omega

/-- What a pull leaves (41_stream.md R186). -/
@[simp] theorem length_queueAfterPull (n : Nat) (uq : List Bool) :
    (queueAfterPull n uq).length = uq.length - n := by
  unfold queueAfterPull
  split <;> simp
  omega

theorem pulledBits_full {n : Nat} {uq : List Bool} (h : n ≤ uq.length) :
    pulledBits n uq = uq.take n := by simp [pulledBits, h]

theorem pulledBits_short {n : Nat} {uq : List Bool} (h : uq.length < n) :
    pulledBits n uq = uq ++ zeros (n - uq.length) := by simp [pulledBits, Nat.not_le.mpr h]

theorem queueAfterPull_full {n : Nat} {uq : List Bool} (h : n ≤ uq.length) :
    queueAfterPull n uq = uq.drop n := by simp [queueAfterPull, h]

theorem queueAfterPull_short {n : Nat} {uq : List Bool} (h : uq.length < n) :
    queueAfterPull n uq = [] := by simp [queueAfterPull, Nat.not_le.mpr h]

/-- The residue an append leaves is always shorter than a byte (41_stream.md R181). -/
theorem length_packAppend_pq (new : List Bool) (s : State) :
    (packAppend new s).pq.length = (s.pq.length + new.length) % 8 := by
  simp
  omega

/-- The two outcomes of FLUSH's queue part (41_stream.md R184). -/
theorem packFlush_cases (s : State) :
    (s.pq = [] ∧ packFlush s = { s with pkout := .zero }) ∨
      (0 < s.pq.length ∧ packFlush s =
        { s with
          pkout := { b0 := BitVec.ofNat 8 (val (s.pq ++ zeros (8 - s.pq.length))), b1 := 0, nout := 1 }
          pq := [] }) := by
  by_cases h : 0 < s.pq.length
  · exact .inr ⟨h, by simp [packFlush, h]⟩
  · exact .inl ⟨List.length_eq_zero_iff.mp (by omega), by simp [packFlush, h, PkOut.zero]⟩

/-- The two outcomes of UPUSH (41_stream.md R185). -/
theorem upushEffect_cases (s : State) :
    (16 < s.uq.length ∧ upushEffect s = raiseError .upovf s) ∨
      (s.uq.length ≤ 16 ∧ upushEffect s =
        { s with uq := s.uq ++ bits s.data, status := s.status.executed 0x9 }) := by
  by_cases h : 16 < s.uq.length
  · exact .inl ⟨h, by simp [upushEffect, h]⟩
  · exact .inr ⟨by omega, by simp [upushEffect, h]⟩

/-- The two outcomes of UPULL (41_stream.md R186). -/
theorem upullEffect_cases (v : Variant) (s : State) :
    (s.uq = [] ∧ upullEffect v s = raiseError .upempty s) ∨
      (s.uq ≠ [] ∧ upullEffect v s =
        { s with
          uq := queueAfterPull v.width s.uq
          cw := zextCodeWord v (BitVec.ofNat v.width (val (pulledBits v.width s.uq)))
          status := { s.status with pad := padFlag v.width s.uq }.executedFor v 0xA }) := by
  by_cases h : s.uq = []
  · exact .inl ⟨h, by simp [upullEffect, h]⟩
  · exact .inr ⟨h, by simp [upullEffect, h]⟩

end Sys2Proof.Machine
end

