-- ==== Sys2Proof/Laws/PerInstr.lean ====
section
/-! SUPPORT. Families of statements about the command as syntax, one lemma per constructor. -/

namespace Sys2Proof.Laws

/-- The word of a command is well-formed and shows the command's OP and variant in the fields of
30_encoding.md R101. -/
def EncodedFields.Statement (i : Instr) : Prop :=
  wordWellFormed (encode i) = true ∧ opField (encode i) = opOf i ∧
    variantField (encode i) = (variantOf i).getD .sec

theorem EncodedFields.nop : EncodedFields.Statement .nop := by unfold EncodedFields.Statement; decide
theorem EncodedFields.enc (v : Variant) : EncodedFields.Statement (.enc v) := by
  unfold EncodedFields.Statement; cases v <;> decide
theorem EncodedFields.synd (v : Variant) : EncodedFields.Statement (.synd v) := by
  unfold EncodedFields.Statement; cases v <;> decide
theorem EncodedFields.locate (v : Variant) : EncodedFields.Statement (.locate v) := by
  unfold EncodedFields.Statement; cases v <;> decide
theorem EncodedFields.correct : EncodedFields.Statement .correct := by
  unfold EncodedFields.Statement; decide
theorem EncodedFields.decode (v : Variant) : EncodedFields.Statement (.decode v) := by
  unfold EncodedFields.Statement; cases v <;> decide
theorem EncodedFields.packcw (v : Variant) : EncodedFields.Statement (.packcw v) := by
  unfold EncodedFields.Statement; cases v <;> decide
theorem EncodedFields.packdata : EncodedFields.Statement .packdata := by
  unfold EncodedFields.Statement; decide
theorem EncodedFields.flush : EncodedFields.Statement .flush := by
  unfold EncodedFields.Statement; decide
theorem EncodedFields.upush : EncodedFields.Statement .upush := by
  unfold EncodedFields.Statement; decide
theorem EncodedFields.upull (v : Variant) : EncodedFields.Statement (.upull v) := by
  unfold EncodedFields.Statement; cases v <;> decide
theorem EncodedFields.sclr : EncodedFields.Statement .sclr := by
  unfold EncodedFields.Statement; decide

end Sys2Proof.Laws
end

