-- ==== Sys2Proof/Laws/Step.lean ====
section
/-! SUPPORT. What exec and a step can do, once and for all. -/

namespace Sys2Proof.Machine

/-- `exec` answers the state of the host layer's `runCommand` at the core's own matrices; it never
stops (60_exceptions.md R226). -/
theorem exec_eq_runCommand (i : Instr) (s : State) :
    exec i s = .next (runCommand Config.matrices i s) := by cases i <;> rfl

/-- A command word runs its command or raises its error (30_encoding.md R110). -/
theorem execWord_cases (w : Word) (s : State) :
    (∃ i, Sys2Proof.decode w = .ok i ∧ execWord w s = .next (runCommand Config.matrices i s)) ∨
      ∃ e, Sys2Proof.decode w = .error e ∧ execWord w s = .next (raiseError e s) := by
  unfold execWord
  cases h : Sys2Proof.decode w with
  | ok i => exact .inl ⟨i, rfl, exec_eq_runCommand i s⟩
  | error e => exact .inr ⟨e, rfl, rfl⟩

/-- An accepted write, by offset (20_memory.md R73). -/
theorem busWrite_cases (off : Nat) (value : Word) (s : State) :
    (off = 0x00 ∧ busWrite off value s = execWord value s) ∨
      (off = 0x04 ∧ busWrite off value s = .next { s with status := s.status.hostWrite value }) ∨
      (off = 0x08 ∧ busWrite off value s = .next { s with data := value.setWidth 8 }) ∨
      (off = 0x0C ∧ busWrite off value s = .next { s with cw := value.setWidth 16 }) ∨
      (off ≠ 0x00 ∧ off ≠ 0x04 ∧ off ≠ 0x08 ∧ off ≠ 0x0C ∧ busWrite off value s = .next s) := by
  unfold busWrite
  split <;> simp_all

@[simp] theorem step_of_idle {s : State} (h : s.pending = []) : step s = .next s := by simp [step, h]

theorem step_of_pending {s : State} {e : HostEvent} {rest : List HostEvent}
    (h : s.pending = e :: rest) : step s = hostEvent e { s with pending := rest } := by
  simp [step, h]

/-- Everything a step that does not stop can be: nothing pending, a command, a command error, a write
of STATUS, DATA or CW, an ignored write, a read, or RESET. `u` is the state with the event taken off
the host's list. -/
theorem step_cases {s t : State} (h : step s = .next t) :
    (s.pending = [] ∧ t = s) ∨
      ∃ e u, s.pending = e :: u.pending ∧ u = { s with pending := u.pending } ∧
        ((∃ w i, e = .write 4 0x00 w ∧ Sys2Proof.decode w = .ok i ∧
            t = runCommand Config.matrices i u) ∨
          (∃ w x, e = .write 4 0x00 w ∧ Sys2Proof.decode w = .error x ∧ t = raiseError x u) ∨
          (∃ w, e = .write 4 0x04 w ∧ t = { u with status := u.status.hostWrite w }) ∨
          (∃ w : Word, e = .write 4 0x08 w ∧ t = { u with data := w.setWidth 8 }) ∨
          (∃ w : Word, e = .write 4 0x0C w ∧ t = { u with cw := w.setWidth 16 }) ∨
          (∃ off w, e = .write 4 off w ∧ t = u) ∨
          (∃ off, e = .read 4 off ∧ t = { u with reads := u.reads ++ [busRead off u] }) ∨
          (e = .reset ∧ t = resetCore u)) := by
  cases hp : s.pending with
  | nil =>
    rw [step_of_idle hp] at h
    exact .inl ⟨rfl, by injection h with h; exact h.symm⟩
  | cons e rest =>
    rw [step_of_pending hp] at h
    refine .inr ⟨e, { s with pending := rest }, rfl, rfl, ?_⟩
    cases e with
    | write bytes off w =>
      simp only [hostEvent] at h
      split at h
      · rename_i ha
        have hb : bytes = 4 := by simp [accepted] at ha; exact ha.1.1
        subst hb
        rcases busWrite_cases off w { s with pending := rest } with
          ⟨rfl, hw⟩ | ⟨rfl, hw⟩ | ⟨rfl, hw⟩ | ⟨rfl, hw⟩ | ⟨-, -, -, -, hw⟩
        · rw [hw] at h
          rcases execWord_cases w { s with pending := rest } with ⟨i, hd, hx⟩ | ⟨x, hd, hx⟩
          · rw [hx] at h; injection h with h
            exact .inl ⟨w, i, rfl, hd, h.symm⟩
          · rw [hx] at h; injection h with h
            exact .inr (.inl ⟨w, x, rfl, hd, h.symm⟩)
        · rw [hw] at h; injection h with h
          exact .inr (.inr (.inl ⟨w, rfl, h.symm⟩))
        · rw [hw] at h; injection h with h
          exact .inr (.inr (.inr (.inl ⟨w, rfl, h.symm⟩)))
        · rw [hw] at h; injection h with h
          exact .inr (.inr (.inr (.inr (.inl ⟨w, rfl, h.symm⟩))))
        · rw [hw] at h; injection h with h
          exact .inr (.inr (.inr (.inr (.inr (.inl ⟨off, w, rfl, h.symm⟩)))))
      · cases h
    | read bytes off =>
      simp only [hostEvent] at h
      split at h
      · rename_i ha
        have hb : bytes = 4 := by simp [accepted] at ha; exact ha.1.1
        subst hb
        injection h with h
        exact .inr (.inr (.inr (.inr (.inr (.inr (.inl ⟨off, rfl, h.symm⟩))))))
      · cases h
    | reset =>
      simp only [hostEvent] at h
      injection h with h
      exact .inr (.inr (.inr (.inr (.inr (.inr (.inr ⟨rfl, h.symm⟩))))))

end Sys2Proof.Machine
end

