-- ==== Sys2Proof/Tests/Slice0.lean ====
section
/-! SUPPORT. The model's own tests, the WellFormed smoke tests, and one witness for each statement with
hypotheses. Expected values come from spec/: the encodings of 30_encoding.md and the vectors of
95_test_vectors.md. Values that depend on the matrices use the reference instance of 40_codec.md R131,
which stands here only: the core's own matrices stay open. -/

namespace Sys2Proof.Tests

open Sys2Proof.Machine

/-! ### The reference instance (40_codec.md R131) -/

/-- A row from its entries, column 0 first. -/
def row {n : Nat} (x : BitVec n) : Vector Bool n := Vector.ofFn fun j => x.getMsbD j

def refSec : GfMatrix 4 12 :=
  #v[row 0b000011111000, row 0b011100010100, row 0b101101100010, row 0b110110100001]

def refDec : GfMatrix 8 16 :=
  #v[row 0b0111010010000000, row 0b0011101001000000, row 0b0001110100100000, row 0b1000111000010000,
     row 0b0100011100001000, row 0b1010001100000100, row 0b1101000100000010, row 0b1110100000000001]

def ref : Matrices := ⟨refSec, refDec⟩

/-- R131's own line of column values. -/
theorem test_ref_sec_columns :
    (List.range 12).map (fun j => col refSec j) =
      [0x3, 0x5, 0x6, 0x7, 0x9, 0xA, 0xB, 0xC, 0x8, 0x4, 0x2, 0x1] := by decide

theorem test_ref_dec_columns :
    (List.range 16).map (fun j => col refDec j) =
      [0x17, 0x8B, 0xC5, 0xE2, 0x71, 0xB8, 0x5C, 0x2E, 0x80, 0x40, 0x20, 0x10, 0x08, 0x04, 0x02,
       0x01] := by decide

/-! ### Decoding: words written out from the table of 30_encoding.md R102 -/

theorem test_decode_nop : decode 0x00000000 = .ok .nop ∧ decode 0x00000010 = .ok .nop := by decide
theorem test_decode_enc :
    decode 0x00000001 = .ok (.enc .sec) ∧ decode 0x00000011 = .ok (.enc .dec) := by decide
theorem test_decode_synd :
    decode 0x00000002 = .ok (.synd .sec) ∧ decode 0x00000012 = .ok (.synd .dec) := by decide
theorem test_decode_locate :
    decode 0x00000003 = .ok (.locate .sec) ∧ decode 0x00000013 = .ok (.locate .dec) := by decide
theorem test_decode_correct :
    decode 0x00000004 = .ok .correct ∧ decode 0x00000014 = .ok .correct := by decide
theorem test_decode_decode :
    decode 0x00000005 = .ok (.decode .sec) ∧ decode 0x00000015 = .ok (.decode .dec) := by decide
theorem test_decode_packcw :
    decode 0x00000006 = .ok (.packcw .sec) ∧ decode 0x00000016 = .ok (.packcw .dec) := by decide
theorem test_decode_packdata :
    decode 0x00000007 = .ok .packdata ∧ decode 0x00000017 = .ok .packdata := by decide
theorem test_decode_flush :
    decode 0x00000008 = .ok .flush ∧ decode 0x00000018 = .ok .flush := by decide
theorem test_decode_upush :
    decode 0x00000009 = .ok .upush ∧ decode 0x00000019 = .ok .upush := by decide
theorem test_decode_upull :
    decode 0x0000000A = .ok (.upull .sec) ∧ decode 0x0000001A = .ok (.upull .dec) := by decide
theorem test_decode_sclr :
    decode 0x0000000B = .ok .sclr ∧ decode 0x0000001B = .ok .sclr := by decide

/-- Reserved OP first, then reserved bits (60_exceptions.md R223). -/
theorem test_decode_errors :
    decode 0x0000000C = .error .illop ∧ decode 0x0000000F = .error .illop ∧
      decode 0xFFFFFFFC = .error .illop ∧ decode 0x00000021 = .error .rsvd ∧
      decode 0x80000001 = .error .rsvd := by decide

theorem test_encode_words :
    encode (.enc .dec) = 0x11 ∧ encode .correct = 0x04 ∧ encode (.upull .dec) = 0x1A ∧
      encode .sclr = 0x0B := by decide

theorem test_decodeTableWord :
    decodeTableWord 32 0x1A = some (.upull .dec) ∧ decodeTableWord 8 0x05 = some (.decode .sec) ∧
      decodeTableWord 32 0x0C = none ∧ decodeTableWord 40 0x00 = none := by decide

/-! ### WellFormed smoke: one ill-formed term for each check -/

theorem smoke_reserved_op : wordOpDefined 0x0000000C = false ∧ wordWellFormed 0x0000000C = false := by
  decide
theorem smoke_reserved_bit :
    wordReservedClear 0x00000021 = false ∧ wordWellFormed 0x00000021 = false := by decide
theorem smoke_wellFormed : wordWellFormed 0x0000001B = true := by decide
theorem smoke_access_refused :
    accepted 2 0x08 = false ∧ accepted 4 0x02 = false ∧ accepted 4 0x100 = false ∧
      accepted 4 0xFC = true := by decide

/-! ### The commands -/

/-- A state with a DATA and a CW, otherwise as after reset. -/
def start (d : Byte) (w : BitVec 16) : State := { State.reset with data := d, cw := w }

/-- The registers a host reads after a command. -/
def reads (offs : List Nat) (s : State) : List Word := offs.map fun o => busRead o s

/-- §2.8: only LASTOP changes. -/
theorem test_nop :
    runCommand ref .nop (runCommand ref (.synd .sec) (start 0 0x001)) =
      { runCommand ref (.synd .sec) (start 0 0x001) with
        status := { Status.reset with synnz := true } } := by decide

/-- §2.1, register level. -/
theorem test_enc_sec :
    reads [0x0C, 0x04] (runCommand ref (.enc .sec) (start 0x9A 0xF000)) = [0x09A6, 0x1000] := by
  decide
theorem test_enc_dec :
    reads [0x0C, 0x04] (runCommand ref (.enc .dec) (start 0x9A 0x09A6)) = [0x9AD8, 0x1010] := by
  decide

/-- §2.2. -/
theorem test_synd_sec :
    reads [0x10, 0x04] (runCommand ref (.synd .sec) (start 0 0x9AD9)) = [0x3, 0x2001] := by decide
theorem test_synd_dec :
    reads [0x10, 0x04] (runCommand ref (.synd .dec) (start 0 0x9AD9)) = [0x01, 0x2011] := by decide

/-- §2.3: SINGLE(7), and a nonzero syndrome that matches nothing. -/
theorem test_locate_sec :
    reads [0x14, 0x04] (runCommand ref (.locate .sec) { State.reset with syn := 0xFC }) =
        [0x0701, 0x3000] ∧
      reads [0x14, 0x04] (runCommand ref (.locate .sec) { State.reset with syn := 0x0D }) =
        [0x0000, 0x3004] := by decide
theorem test_locate_dec :
    reads [0x14, 0x04] (runCommand ref (.locate .dec) { State.reset with syn := 0xEA }) =
        [0xC306, 0x3010] ∧
      reads [0x14, 0x04] (runCommand ref (.locate .dec) { State.reset with syn := 0x00 }) =
        [0x0004, 0x3010] := by decide +kernel

/-- §2.4: `CW[15:12]` is kept, the variant comes from LOC.LV. -/
theorem test_correct_sec :
    reads [0x0C, 0x04]
        (runCommand ref .correct
          { start 0 0xF9A7 with loc := { result := .single 11, lv := .sec } }) =
      [0xF9A6, 0x4002] := by decide
theorem test_correct_dec :
    reads [0x0C, 0x04]
        (runCommand ref .correct
          { start 0 0xBA98 with loc := { result := .pair 2 9, lv := .dec } }) =
      [0x9AD8, 0x4012] := by decide

/-- §2.5: the upper CW bits are kept by DECODE.SEC. -/
theorem test_decode_sec :
    reads [0x08, 0x0C, 0x10, 0x14, 0x04] (runCommand ref (.decode .sec) (start 0 0xF8A6)) =
      [0x9A, 0xF9A6, 0x7, 0x0301, 0x5003] := by decide
/-- §1.4. -/
theorem test_decode_dec :
    reads [0x08, 0x0C, 0x10, 0x14, 0x04] (runCommand ref (.decode .dec) (start 0 0xBA98)) =
      [0x9A, 0x9AD8, 0x85, 0x9206, 0x5013] := by decide +kernel

/-- §2.6. -/
theorem test_packcw_sec :
    reads [0x18, 0x1C, 0x04]
        (runCommand ref (.packcw .sec)
          { start 0 0xFFF3 with pq := [false, true, true, false] }) =
      [0x2F36F, 0x0000, 0x6000] := by decide
theorem test_packcw_dec :
    reads [0x18, 0x1C, 0x04]
        (runCommand ref (.packcw .dec)
          { start 0 0x9AD8 with pq := [false, true, true, false] }) =
      [0x2AD69, 0x0004, 0x6010] := by decide
theorem test_packdata :
    reads [0x18, 0x1C, 0x04]
        (runCommand ref .packdata { start 0xFF 0 with pq := [true, false, false, false] }) =
      [0x1008F, 0x0004, 0x7000] := by decide
theorem test_flush :
    reads [0x18, 0x1C, 0x04]
        (runCommand ref .flush { start 0 0 with pq := [true, true, true, true] }) =
      [0x100F0, 0x0000, 0x8000] := by decide
theorem test_flush_empty :
    reads [0x18, 0x1C, 0x04]
        (runCommand ref .flush { start 0 0 with pkout := { b0 := 0x9A, b1 := 0xD8, nout := 2 } }) =
      [0x00000, 0x0000, 0x8000] := by decide

/-- §2.7. -/
theorem test_upush :
    reads [0x1C, 0x04] (runCommand ref .upush (start 0x9A 0)) = [0x0800, 0x9000] := by decide
theorem test_upush_overflow :
    reads [0x1C, 0x04] (runCommand ref .upush { start 0x11 0 with uq := zeros 24 }) =
      [0x1800, 0x0700] := by decide
theorem test_upull_sec :
    reads [0x0C, 0x1C, 0x04]
        (runCommand ref (.upull .sec) { start 0 0 with uq := bits (0x9A : Byte) ++ bits (0x60 : Byte) }) =
      [0x09A6, 0x0400, 0xA000] := by decide
theorem test_upull_dec_short :
    reads [0x0C, 0x1C, 0x04] (runCommand ref (.upull .dec) { start 0 0 with uq := bits (0xAB : Byte) }) =
      [0xAB00, 0x0000, 0xA018] := by decide
theorem test_sclr :
    reads [0x18, 0x1C, 0x04]
        (runCommand ref .sclr
          { start 0 0 with uq := zeros 8, pq := [true], pkout := { b0 := 1, b1 := 0, nout := 1 } }) =
      [0, 0, 0xB000] := by decide

/-! ### Bus, step, assembler -/

/-- §2.9: what a read returns of each register after reset. -/
theorem test_reset_reads :
    reads [0x00, 0x04, 0x08, 0x0C, 0x10, 0x14, 0x18, 0x1C, 0x20, 0x24, 0xFC] State.reset =
      [0, 0, 0, 0, 0, 0, 0, 0, 0x47463201, 0, 0] := by decide

/-- §2.9: DATA and CW take the low bits; SYN ignores the write. -/
theorem test_bus_writes :
    busWrite 0x08 0x1234 State.reset = .next (start 0x34 0) ∧
      busWrite 0x0C 0xABCDE State.reset = .next (start 0 0xBCDE) ∧
      busWrite 0x10 0xFF State.reset = .next State.reset := ⟨rfl, rfl, rfl⟩

/-- §2.8: the first error is kept, and a STATUS write with bit 8 clears both fields. -/
theorem test_first_error_kept :
    (raiseError .rsvd (raiseError .illop State.reset)).status =
        { Status.reset with err := true, errcode := 1 } ∧
      ((raiseError .illop State.reset).status.hostWrite 0x100) = Status.reset ∧
      ((raiseError .illop State.reset).status.hostWrite 0xFF) =
        (raiseError .illop State.reset).status := by decide

/-- A placed word is the very next thing a step runs. -/
theorem test_step_runs_fetched_word :
    step (State.reset.withFetchWord 32 0x17) =
      .next
        { State.reset with
          pkout := { b0 := 0, b1 := 0, nout := 1 }
          status := { Status.reset with lastop := 7 } } := rfl

/-- 20_memory.md R71: the host is stuck on a refused access. -/
theorem test_refused_access_stops :
    step { State.reset with pending := [.write 2 0x08 1] } = .fault .unsupportedAccess := rfl

/-- 30_encoding.md R111, R112. -/
theorem test_assembler :
    asmMnemonic (.packcw .dec) = "PACKCW.DEC" ∧ asmMnemonic .correct = "CORRECT" ∧
      registerOffset "PKOUT" = some 0x18 := by decide
theorem test_pseudo_instructions :
    clrErr = [.write 4 0x04 0x100] ∧
      encB .dec 0x9A = [.write 4 0x08 0x9A, .write 4 0x00 0x11] ∧
      decW .sec 0x8A6 = [.write 4 0x0C 0x8A6, .write 4 0x00 0x05] ∧
      pushB 1 = [.write 4 0x08 1, .write 4 0x00 0x09] ∧
      packB 1 = [.write 4 0x08 1, .write 4 0x00 0x07] := by decide

/-- 20_memory.md R70: the window holds 256 bytes from CORE_BASE, wherever that is. -/
theorem test_windowOffset :
    windowOffset (Config.coreBase + 0xFC) = some 0xFC ∧
      windowOffset (Config.coreBase + 0x100) = none := by
  constructor
  · simp [windowOffset]
  · simp [windowOffset]

/-- Program P1's output, through the reference framer (41_stream.md R189). -/
theorem test_encodeFile :
    (encodeFile ref .sec [0x9A, 0xFF, 0x00] State.reset).2 = [0x9A, 0x6F, 0xF3, 0x00, 0x00] := by
  decide +kernel

/-- Program P2's output: one flipped stream bit is corrected (41_stream.md R190). -/
theorem test_decodeFile :
    (decodeFile ref .sec false [0x8A, 0x6F, 0xF3, 0x00, 0x00] State.reset).2 =
        [0x9A, 0xFF, 0x00, 0x00] ∧
      (decodeFile ref .sec true [0x8A, 0x6F, 0xF3, 0x00, 0x00] State.reset).2 =
        [0x9A, 0xFF, 0x00] := by decide +kernel

/-! ### Witnesses: for each statement with hypotheses, a state and operands that meet them together -/

theorem witness_ref_wfSys_sec : WfSys ref .sec := by decide +kernel
theorem witness_ref_wfSys_dec : WfSys ref .dec := by decide +kernel
theorem witness_ref_wfNz_sec : WfNz ref .sec := by decide +kernel
theorem witness_ref_wfNz_dec : WfNz ref .dec := by decide +kernel
theorem witness_ref_wfDistSec : WfDistSec ref := by decide +kernel
theorem witness_ref_wfPairDec : WfPairDec ref := by
  constructor
  · decide +kernel
  · have h : (columnPairs.all fun p => columnPairs.all fun q =>
        pairSum ref p.1 p.2 != pairSum ref q.1 q.2 || decide (p = q)) = true := by decide +kernel
    intro p hp q hq he
    have := List.all_eq_true.mp (List.all_eq_true.mp h p hp) q hq
    simpa [he] using this

theorem witness_DecodeOfEncodeIsTheCommand : (Instr.upull .dec).wellFormed = true := by decide
theorem witness_WordDecodesExactlyToItsCommand :
    (0x1A : Word) = encode (.upull .dec) ∧
      variantOf .correct = none ∧ (0x14 : Word) = encode .correct ||| 0x10 := by decide
theorem witness_DecodeIsTotalAndRejectsByCause :
    wordWellFormed 0x1B = true ∧ 12 ≤ (0x0000000C : Word).toNat % 16 ∧
      ((0x0000002B : Word).toNat % 16 < 12 ∧ 32 ≤ (0x0000002B : Word).toNat) := by decide
theorem witness_StepRunsTheDecodedCommand :
    ∃ (s : State) (rest : List HostEvent) (w : Word) (i : Instr),
      s.pending = .write 4 0x00 w :: rest ∧ decode w = .ok i :=
  ⟨{ State.reset with pending := [.write 4 0x00 0x14] }, [], 0x14, .correct, rfl, by decide⟩
theorem witness_ExecOfWordDispatchesByOpAndReservedBits :
    12 ≤ (0x0000000C : Word).toNat % 16 ∧ 12 ≤ (0xFFFFFFFF : Word).toNat % 16 ∧
      ((0x0000002B : Word).toNat % 16 < 12 ∧ 32 ≤ (0x0000002B : Word).toNat) ∧
      ((0x1B : Word).toNat < 32 ∧ (Claims.opcodeMap .dec)[(0x1B : Word).toNat % 16]? = some .sclr) := by
  decide
theorem witness_CommandErrorsFollowTheCauseTable :
    12 ≤ (0xFFFFFFFC : Word).toNat % 16 ∧
      (¬ 12 ≤ (0x00000029 : Word).toNat % 16 ∧ 32 ≤ (0x00000029 : Word).toNat) ∧
      ((0x19 : Word).toNat < 32 ∧ (0x19 : Word).toNat % 16 = 9 ∧
        16 < ({ State.reset with uq := zeros 17 } : State).uq.length) ∧
      ((0x1A : Word).toNat < 32 ∧ (0x1A : Word).toNat % 16 = 10 ∧ State.reset.uq.length = 0) ∧
      ((0x09 : Word).toNat < 32 ∧ ¬ 16 < ({ State.reset with uq := zeros 16 } : State).uq.length) := by
  decide
theorem witness_StepWithNoPendingAccessHoldsTheState : State.reset.pending = [] := rfl
theorem witness_StepStopsExactlyOnUnsupportedAccess :
    Claims.Unsupported 2 0x08 ∧ Claims.Unsupported 4 0x02 ∧ Claims.Unsupported 4 0x100 ∧
      ¬ Claims.Unsupported 4 0xFC ∧
      step { State.reset with pending := [.read 4 0x100] } = .fault .unsupportedAccess := by
  refine ⟨?_, ?_, ?_, ?_, rfl⟩ <;> unfold Claims.Unsupported <;> decide
theorem witness_SupportedAccessesAllComplete :
    HostBehaves { State.reset with pending := [.write 4 0x00 0xC, .read 4 0xFC, .reset] } := by
  unfold HostBehaves; decide
theorem witness_ReadHasNoSideEffect :
    ∃ s t : State, (s.pending = .read 4 0x00 :: [] ∧ 0x00 % 4 = 0 ∧ 0x00 < 0x100) ∧
      (t.pending = .read 4 0xFC :: [] ∧ 0xFC % 4 = 0 ∧ 0xFC < 0x100) :=
  ⟨{ State.reset with pending := [.read 4 0x00] }, { State.reset with pending := [.read 4 0xFC] },
    by decide, by decide⟩
theorem witness_RegisterReadValues :
    ∃ s : State, s.pq.length = 7 ∧ s.uq.length = 24 ∧ busRead 0x1C s = 0x1807 :=
  ⟨{ State.reset with pq := zeros 7, uq := zeros 24 }, by decide, by decide, by decide⟩
theorem witness_HostWriteEffectsByOffset :
    ∀ off ∈ [0x04, 0x08, 0x0C, 0x10, 0xFC],
      ({ State.reset with pending := [.write 4 off 0x100] } : State).pending = [.write 4 off 0x100] ∧
        off % 4 = 0 ∧ off < 0x100 ∧ off ≠ 0x00 := by decide
theorem witness_RepeatedRegisterWriteIsIdempotent :
    0x0C ≠ 0x00 ∧ busWrite 0x0C 0x9A6 State.reset = .next (start 0 0x9A6) := ⟨by decide, rfl⟩
theorem witness_ResetEventRestoresTheCore :
    ({ start 1 2 with pending := [.reset] } : State).pending = [.reset] := rfl
theorem witness_CorrectCompletesFlippingLocatedBits :
    LocReg.Reachable ⟨.none, .dec⟩ ∧ LocReg.Reachable ⟨.single 11, .sec⟩ ∧
      LocReg.Reachable ⟨.pair 14 15, .dec⟩ := by simp [LocReg.Reachable]
theorem witness_ZeroWordDecodesToZeroData :
    (start 0x9A 0xF000).cw.toNat % 2 ^ Variant.width .sec = 0 ∧
      (start 0x9A 0).cw.toNat % 2 ^ Variant.width .dec = 0 := by decide
theorem witness_SyndromeIsLinear :
    (11 < Variant.width .sec ∧ 0 < Variant.width .sec ∧ 11 ≠ 0) ∧
      syn ref .sec (positionMask 12 11) = 0x1 ∧ syn ref .sec (positionMask 12 0) = 0x3 := by decide
theorem witness_IdentityParityColumnsGiveWfSys :
    (∀ k < Variant.parity .sec,
        (col (ref.of .sec) (8 + k)).toNat = 2 ^ (Variant.parity .sec - 1 - k)) ∧
      ∀ k < Variant.parity .dec,
        (col (ref.of .dec) (8 + k)).toNat = 2 ^ (Variant.parity .dec - 1 - k) := by decide +kernel
theorem witness_CleanCodeWordRoundTrips : WfSys ref .sec ∧ WfSys ref .dec :=
  ⟨witness_ref_wfSys_sec, witness_ref_wfSys_dec⟩
theorem witness_SecCorrectsEverySingleBitError :
    WfSys ref .sec ∧ WfNz ref .sec ∧ WfDistSec ref :=
  ⟨witness_ref_wfSys_sec, witness_ref_wfNz_sec, witness_ref_wfDistSec⟩
theorem witness_firstPair :
    ((2 : Fin 16) < 9 ∧ pairSum ref 2 9 ≠ 0) ∧
      ∀ a ∈ columnPairs, pairSum ref a.1 a.2 = pairSum ref 2 9 → 2 < a.1 ∨ 2 = a.1 ∧ 9 ≤ a.2 := by
  decide +kernel
theorem witness_DecCorrectsFirstMatchingPair :
    WfSys ref .dec ∧ (2 : Fin 16) < 9 ∧ pairSum ref 2 9 ≠ 0 :=
  ⟨witness_ref_wfSys_dec, witness_firstPair.1⟩
theorem witness_DecDoubleErrorGuaranteeWithoutNonzeroPremise :
    WfSys ref .dec ∧ (2 : Fin 16) < 9 := ⟨witness_ref_wfSys_dec, witness_firstPair.1.1⟩
theorem witness_DecCorrectsEveryDoubleErrorUnderWfPair :
    WfSys ref .dec ∧ WfPairDec ref ∧ (14 : Fin 16) < 15 :=
  ⟨witness_ref_wfSys_dec, witness_ref_wfPairDec, by decide⟩
theorem witness_DecSingleBitErrorIsNotCorrected : WfSys ref .dec ∧ WfNz ref .dec :=
  ⟨witness_ref_wfSys_dec, witness_ref_wfNz_dec⟩
theorem witness_SecDoubleErrorIsMiscorrectedOrPassedThrough :
    WfSys ref .sec ∧ WfNz ref .sec ∧ WfDistSec ref ∧ (3 : Fin 12) ≠ 4 :=
  ⟨witness_ref_wfSys_sec, witness_ref_wfNz_sec, witness_ref_wfDistSec, by decide⟩
/-- For PACKCW.V, PACKDATA and FLUSH: the empty and the longest residue. -/
theorem witness_packer_residue :
    ∃ s t : State, s.pq.length ≤ 7 ∧ s.pq = [] ∧ t.pq.length ≤ 7 ∧ t.pq.length = 7 :=
  ⟨State.reset, { State.reset with pq := zeros 7 }, by decide, rfl, by decide, by decide⟩
theorem witness_upush :
    ∃ s t : State, s.uq.length ≤ 16 ∧ s.uq.length = 16 ∧ 16 < t.uq.length ∧ t.uq.length = 17 :=
  ⟨{ State.reset with uq := zeros 16 }, { State.reset with uq := zeros 17 }, by decide, by decide,
    by decide, by decide⟩
theorem witness_upull :
    ∃ s t : State, s.uq ≠ [] ∧ s.uq.length = 1 ∧ t.uq = [] :=
  ⟨{ State.reset with uq := [true] }, State.reset, by decide, rfl, rfl⟩
theorem witness_PackedWordsStreamIsTheirConcatenation : State.reset.pq = [] := rfl
theorem witness_UnpackedStreamReturnsTheWords :
    State.reset.uq = [] ∧
      ([0x9A, 0x60] : List Byte).flatMap Claims.byteBits =
        ([0x9A6] : List (BitVec 16)).flatMap (Claims.cwBits .sec) ++
          Claims.padBits (Variant.width .sec * 1) := by decide
theorem witness_FileRoundTrip : WfSys ref .sec ∧ WfSys ref .dec := witness_CleanCodeWordRoundTrips
/-- An initialised run of the invariant's step: reset with a command placed. -/
theorem witness_EveryStepKeepsTheInvariant :
    ∃ s t : State, s.pending = [.write 4 0x00 0x0C] ∧ s.pq = [] ∧ step s = .next t ∧
      t.status.errcode = 1 ∧ Invariant s := by
  refine ⟨{ State.reset with pending := [.write 4 0x00 0x0C] },
    raiseError .illop State.reset, rfl, rfl, rfl, by decide, ?_⟩
  constructor
  · simp [LocReg.Reachable, State.reset]
  · constructor <;> decide
  · constructor <;> decide
  · constructor <;> decide
  · decide
theorem witness_StatusFieldsFollowTheTable :
    ¬ Claims.raisesOwnError .upush { State.reset with uq := zeros 16 } ∧
      ¬ Claims.raisesOwnError (.upull .sec) { State.reset with uq := [true] } ∧
      ¬ Claims.raisesOwnError .nop State.reset ∧
      Claims.raisesOwnError .upush { State.reset with uq := zeros 17 } ∧
      Claims.raisesOwnError (.upull .dec) State.reset := by
  simp [Claims.raisesOwnError]
  rfl
/-- DECODE.V of CW = 0 changes DATA, SYN and LOC for every matrix (95_test_vectors.md §2.5); PACKDATA
changes PKOUT, UPUSH changes UQ or, in error, STATUS and the record. -/
theorem witness_OnlyTheNamedCommandsChangeARegister :
    (∃ s t, exec (.decode .dec) s = .next t ∧ t.data ≠ s.data ∧ t.syn ≠ s.syn ∧ t.loc ≠ s.loc) ∧
      (∃ s t, exec .correct s = .next t ∧ t.cw ≠ s.cw) ∧
      (∃ s t, exec (.packcw .sec) s = .next t ∧ t.pkout ≠ s.pkout ∧ t.pq ≠ s.pq) ∧
      (∃ s t, exec .upush s = .next t ∧ t.uq ≠ s.uq) ∧
      ∃ s t, exec .upush s = .next t ∧ t.status.err ≠ s.status.err ∧ t.errLog ≠ s.errLog := by
  refine ⟨⟨{ State.reset with data := 1, syn := 1, loc := ⟨.single 0, .sec⟩ }, _, rfl, ?_, ?_, ?_⟩,
    ⟨{ State.reset with loc := ⟨.single 0, .sec⟩ }, _, rfl, ?_⟩,
    ⟨State.reset, _, rfl, ?_, ?_⟩, ⟨State.reset, _, rfl, ?_⟩,
    ⟨{ State.reset with uq := zeros 17 }, _, rfl, ?_, ?_⟩⟩ <;> decide
theorem witness_SecResultsIgnoreUpperCwBits :
    (variantOf (.decode .sec) = some .sec ∧ (Instr.correct = .correct ∧ State.reset.loc.lv = .sec)) ∧
      (0xF9A6 : BitVec 16).setWidth 12 = (start 0 0x09A6).cw.setWidth 12 ∧
      (Instr.upull .sec = .upull .sec ∧ ({ start 0 0x09A6 with uq := [true] } : State).uq ≠ []) := by
  decide
theorem witness_DecodeDependsOnTheCodeWordAlone :
    (start 0x55 0xF9A6).cw.toNat % 2 ^ Variant.width .sec =
      (start 0 0x09A6).cw.toNat % 2 ^ Variant.width .sec := by decide
/-- A command, and the STATUS write that does not clear, on a core with ERR set. -/
theorem witness_ErrorFlagIsSticky :
    ∃ s t : State, step s = .next t ∧ s.status.err = true ∧
      ∀ e rest, s.pending = e :: rest →
        e ≠ .reset ∧ ∀ w, e = .write 4 0x04 w → w.getLsbD 8 = false := by
  refine ⟨{ raiseError .illop State.reset with pending := [.write 4 0x04 0xFF] },
    raiseError .illop State.reset, rfl, by decide, ?_⟩
  intro e rest h
  injection h with h1 _
  subst h1
  refine ⟨by decide, ?_⟩
  intro w hw
  injection hw with _ _ h2
  subst h2
  decide
theorem witness_ErrorRecordOnlyGrows :
    (∃ s t : State, step s = .next t ∧ t.errLog = s.errLog) ∧
      ∃ s t : State, step s = .next t ∧ t.errLog = s.errLog ++ [.rsvd] :=
  ⟨⟨State.reset, State.reset, rfl, rfl⟩,
    ⟨{ State.reset with pending := [.write 4 0x00 0x21] }, raiseError .rsvd State.reset, rfl, rfl⟩⟩

end Sys2Proof.Tests
end

section
/-! PROOF. The statements of 10_state.md: what a command leaves in STATUS, that no command reads it, and
that the bits of CW above a code word never reach a result. Every command is taken at arbitrary matrices
through `runCommand`, which `exec` answers at the core's own (`exec_eq_runCommand`). -/

namespace Sys2Proof.Machine

open Sys2Proof.Claims

/-! ### The operands in CW and SYN -/

/-- A zero-extended syndrome is 0 exactly when the syndrome is (10_state.md R37, R42). -/
theorem zextSyndrome_bne_zero (v : Variant) (S : BitVec v.parity) :
    (zextSyndrome v S != 0) = synnzFlag S := by
  have hle : v.parity ≤ 8 := by cases v <;> decide
  have hval : (zextSyndrome v S).toNat = S.toNat := BitVec.toNat_setWidth_of_le hle
  rw [synnzFlag, Bool.eq_iff_iff]
  simp [← BitVec.toNat_inj, hval]

/-- The syndrome the claims read in SYN is the operand of LOCATE.V, zero-extended (40_codec.md R153). -/
theorem syndromeOf_eq_zextSyndrome (v : Variant) (s : State) :
    syndromeOf v s.syn = zextSyndrome v (syndromeOperand v s) := by
  cases v with
  | sec =>
    have hmask : s.syn.toNat &&& 15 = s.syn.toNat % 16 := Nat.and_two_pow_sub_one_eq_mod _ 4
    have hlt : s.syn.toNat % 16 < 256 := by omega
    change s.syn &&& 0x0F = (s.syn.setWidth 4).setWidth 8
    apply BitVec.eq_of_toNat_eq
    simp [hmask, Nat.mod_eq_of_lt hlt]
  | dec => simp [syndromeOf, zextSyndrome, syndromeOperand]

/-- What goes into the code word bits of CW is what is read back from them (10_state.md R36). -/
@[simp] theorem setWidth_insertCodeWord (v : Variant) (cw : BitVec 16) (c : BitVec v.width) :
    (insertCodeWord v cw c).setWidth v.width = c := by
  ext k hk
  have hle : v.width ≤ 16 := by cases v <;> decide
  have h16 : k < 16 := by omega
  simp [insertCodeWord, hk, h16]

/-- `CW[N(V)-1:0] <- c` keeps every bit above the code word (10_state.md R36). -/
theorem getLsbD_insertCodeWord_of_ge (v : Variant) (cw : BitVec 16) (c : BitVec v.width) {k : Nat}
    (hk : v.width ≤ k) : (insertCodeWord v cw c).getLsbD k = cw.getLsbD k := by
  by_cases h16 : k < 16
  · simp [insertCodeWord, h16, Nat.not_lt.mpr hk, Nat.add_sub_cancel' hk, BitVec.getLsbD_of_ge c k hk]
  · rw [BitVec.getLsbD_of_ge _ k (by omega), BitVec.getLsbD_of_ge _ k (by omega)]

/-- `CW <- zext_16(c)` clears every bit above the code word (10_state.md R36). -/
theorem getLsbD_zextCodeWord_of_ge (v : Variant) (c : BitVec v.width) {k : Nat} (hk : v.width ≤ k) :
    (zextCodeWord v c).getLsbD k = false := by
  simp [zextCodeWord, BitVec.getLsbD_of_ge c k hk]

/-! ### STATUS after a command -/

/-- A command that raises its own error is that error alone (41_stream.md R185, R186). -/
theorem runCommand_of_raisesOwnError (H : Matrices) {i : Instr} {s : State} (h : raisesOwnError i s) :
    ∃ e, runCommand H i s = raiseError e s := by
  obtain ⟨rfl, hfull⟩ | ⟨v, rfl, hempty⟩ := h
  · obtain ⟨-, hraise⟩ | ⟨hfits, -⟩ := upushEffect_cases s
    · exact ⟨.upovf, hraise⟩
    · omega
  · obtain ⟨-, hraise⟩ | ⟨hne, -⟩ := upullEffect_cases v s
    · exact ⟨.upempty, hraise⟩
    · exact absurd hempty hne

/-- A command that is not in error leaves STATUS as its row of the table says (10_state.md R42). -/
theorem runCommand_status_of_not_raisesOwnError (H : Matrices) {i : Instr} {s : State}
    (h : ¬raisesOwnError i s) :
    (runCommand H i s).status = statusAfter i s (runCommand H i s) := by
  cases i with
  | nop | enc | correct | packcw | packdata | flush | sclr => rfl
  | synd v =>
    simp only [statusAfter, runCommand, syndEffect, zextSyndrome_bne_zero]
    rfl
  | locate v =>
    simp only [statusAfter, runCommand, locateEffect, syndromeOf_eq_zextSyndrome,
      zextSyndrome_bne_zero]
    rfl
  | decode v =>
    simp only [statusAfter, runCommand, decodeEffect, zextSyndrome_bne_zero]
    rfl
  | upush =>
    obtain ⟨hfull, -⟩ | ⟨-, hpush⟩ := upushEffect_cases s
    · exact absurd (.inl ⟨rfl, hfull⟩) h
    · simp only [runCommand, hpush]
      rfl
  | upull v =>
    obtain ⟨hempty, -⟩ | ⟨-, hpull⟩ := upullEffect_cases v s
    · exact absurd (.inr ⟨v, rfl, hempty⟩) h
    · simp only [runCommand, hpull]
      rfl

/-- Settles O49: a command in error is `raiseError`, and every other follows its row of the table. -/
theorem statusFieldsFollowTheTable : Obligations.StatusFieldsFollowTheTable := by
  intro i s
  refine ⟨_, exec_eq_runCommand i s, runCommand_status_of_not_raisesOwnError _, fun h => ?_⟩
  obtain ⟨e, hraise⟩ := runCommand_of_raisesOwnError Config.matrices h
  exact ⟨_, by rw [hraise, raiseError_status]⟩

/-! ### No command reads STATUS -/

/-- With another STATUS a command leaves a state that differs in STATUS alone (10_state.md R50): where
it branches, it is on the queues. -/
theorem runCommand_of_other_status (H : Matrices) (i : Instr) (s : State) (st : Status) :
    { runCommand H i { s with status := st } with status := (runCommand H i s).status } =
      runCommand H i s := by
  cases i with
  | nop | enc | synd | locate | correct | decode | packcw | packdata | sclr => rfl
  | flush => by_cases hq : 0 < s.pq.length <;> simp [runCommand, flushEffect, packFlush, hq]
  | upush => by_cases hq : 16 < s.uq.length <;> simp [runCommand, upushEffect, raiseError, hq]
  | upull v => by_cases hq : s.uq = [] <;> simp [runCommand, upullEffect, raiseError, hq]

/-- Settles O51: no command's branch or result takes STATUS as an operand. -/
theorem noCommandResultDependsOnStatus : Obligations.NoCommandResultDependsOnStatus := fun i s st =>
  ⟨_, _, exec_eq_runCommand i s, exec_eq_runCommand i _, runCommand_of_other_status _ i s st⟩

/-! ### The bits of CW above the code word -/

/-- Two states that are equal but for the bits of CW above a code word of variant v (10_state.md R36). -/
def EqualBelowCodeWord (v : Variant) (t' t : State) : Prop :=
  codeWord v t' = codeWord v t ∧ { t' with cw := t.cw } = t

/-- The command works in variant v: its own, or for CORRECT that of LOC (30_encoding.md R103,
40_codec.md R154). -/
def WorksIn (v : Variant) (i : Instr) (s : State) : Prop :=
  variantOf i = some v ∨ i = .correct ∧ s.loc.lv = v

/-- A command of variant v sees CW through its code word alone, so states that agree there end in
states that agree there (10_state.md R36). -/
theorem runCommand_equalBelowCodeWord (H : Matrices) {v : Variant} {i : Instr} {s : State}
    {x : BitVec 16} (hi : WorksIn v i s) (hx : codeWord v { s with cw := x } = codeWord v s) :
    EqualBelowCodeWord v (runCommand H i { s with cw := x }) (runCommand H i s) := by
  obtain hv | ⟨rfl, rfl⟩ := hi
  · cases i with
    | nop | correct | packdata | flush | upush | sclr => cases hv
    | enc => exact ⟨rfl, rfl⟩
    | synd =>
      cases hv
      simp only [runCommand, syndEffect, hx]
      exact ⟨hx, rfl⟩
    | locate => exact ⟨hx, rfl⟩
    | decode =>
      cases hv
      simp only [runCommand, decodeEffect, hx]
      exact ⟨by simp [codeWord], rfl⟩
    | packcw =>
      cases hv
      simp only [runCommand, packcwEffect, hx]
      exact ⟨hx, rfl⟩
    | upull =>
      cases hv
      by_cases hq : s.uq.length = 0
      · simp only [runCommand, upullEffect, hq, if_true]
        exact ⟨hx, rfl⟩
      · simp only [runCommand, upullEffect, hq, if_false]
        exact ⟨rfl, rfl⟩
  · simp only [runCommand, correctEffect, hx]
    exact ⟨by simp [codeWord], rfl⟩

/-- ENC.V, and UPULL.V on a nonempty queue, clear the bits of CW above the code word (10_state.md
R36). -/
theorem runCommand_clears_above_codeWord (H : Matrices) {v : Variant} {i : Instr} {s : State}
    {k : Nat} (hi : i = .enc v ∨ i = .upull v ∧ s.uq ≠ []) (hk : v.width ≤ k) :
    (runCommand H i s).cw.getLsbD k = false := by
  obtain rfl | ⟨rfl, hne⟩ := hi
  · exact getLsbD_zextCodeWord_of_ge v _ hk
  · obtain ⟨hempty, -⟩ | ⟨-, hpull⟩ := upullEffect_cases v s
    · exact absurd hempty hne
    · simp only [runCommand, hpull]
      exact getLsbD_zextCodeWord_of_ge v _ hk

/-- CORRECT and DECODE.V keep the bits of CW above the code word (10_state.md R36). -/
theorem runCommand_keeps_above_codeWord (H : Matrices) {v : Variant} {i : Instr} {s : State}
    {k : Nat} (hi : i = .correct ∧ s.loc.lv = v ∨ i = .decode v) (hk : v.width ≤ k) :
    (runCommand H i s).cw.getLsbD k = s.cw.getLsbD k := by
  obtain ⟨rfl, rfl⟩ | rfl := hi <;> exact getLsbD_insertCodeWord_of_ge _ _ _ hk

/-- Settles O52: the facts about the code word of any variant, taken at SEC. -/
theorem secResultsIgnoreUpperCwBits : Obligations.SecResultsIgnoreUpperCwBits := by
  intro i s x hi hx
  obtain ⟨hlow, heq⟩ := runCommand_equalBelowCodeWord Config.matrices hi hx
  refine ⟨_, _, exec_eq_runCommand i s, exec_eq_runCommand i _, hlow, heq, ?_, ?_⟩
  · exact fun h k => runCommand_clears_above_codeWord _ h
  · rintro (rfl | rfl) k hk
    · obtain hnone | hlv := hi
      · cases hnone
      · exact runCommand_keeps_above_codeWord _ (.inl hlv) hk
    · exact runCommand_keeps_above_codeWord _ (.inr rfl) hk

end Sys2Proof.Machine
end

section
/-! PROOF. The statements of 30_encoding.md on a whole command word: the fields of R101 read off the
word's value, the three outcomes of the decoder, and the dispatch of `Exec(w)`. -/

namespace Sys2Proof

open Machine Claims

/-! ### The fields of a command word as parts of its value -/

theorem toNat_opField (w : Word) : (opField w).toNat = w.toNat % 16 := by simp [opField]

/-- RSV is what is left of the word above its low five bits (30_encoding.md R101, R104). -/
theorem reservedField_eq_zero_iff (w : Word) : reservedField w = 0 ↔ w.toNat < 32 := by
  have hw : w.toNat < 2 ^ 32 := w.isLt
  rw [← BitVec.toNat_inj]
  simp [reservedField, Nat.shiftRight_eq_div_pow]
  omega

/-- Without reserved bits, V is set exactly in the upper half of the words left (30_encoding.md R101). -/
theorem variantField_of_lt {w : Word} (h : w.toNat < 32) :
    variantField w = if 16 ≤ w.toNat then .dec else .sec := by
  have hbit : w.getLsbD 4 = decide (16 ≤ w.toNat) := by
    rw [BitVec.getLsbD, Nat.testBit_eq_decide_div_mod_eq, decide_eq_decide]
    omega
  simp only [variantField, hbit, decide_eq_true_eq]

theorem wordWellFormed_iff (w : Word) :
    wordWellFormed w = true ↔ w.toNat % 16 < 12 ∧ w.toNat < 32 := by
  simp [wordWellFormed, wordOpDefined, wordReservedClear]

/-! ### The three outcomes of the decoder -/

/-- A reserved OP is ILLOP, whatever the other bits (30_encoding.md R107, R110). -/
theorem decode_of_reserved_op {w : Word} (h : 12 ≤ w.toNat % 16) : decode w = .error .illop := by
  simp [decode, toNat_opField, h]

/-- A legal OP with a reserved bit set is RSVD (30_encoding.md R104, R110). -/
theorem decode_of_reserved_bit {w : Word} (hop : w.toNat % 16 < 12) (h : 32 ≤ w.toNat) :
    decode w = .error .rsvd := by
  have hrsv : reservedField w ≠ 0 := by rw [Ne, reservedField_eq_zero_iff]; omega
  rw [decode, toNat_opField, if_neg (Nat.not_le.mpr hop), if_pos hrsv]

/-- Any other word is the command that the opcode map has at OP, in the variant V (30_encoding.md R102,
R103): one case for each row of the map. -/
theorem decode_of_opcodeMap {w : Word} {i : Instr} (h : w.toNat < 32)
    (hi : (opcodeMap (variantField w))[w.toNat % 16]? = some i) : decode w = .ok i := by
  have hop : w.toNat % 16 < 12 := (List.getElem?_eq_some_iff.mp hi).1
  have hrsv : reservedField w = 0 := (reservedField_eq_zero_iff w).mpr h
  rw [decode, toNat_opField, if_neg (Nat.not_le.mpr hop), if_neg (not_not.mpr hrsv)]
  generalize w.toNat % 16 = op at hi hop ⊢
  interval_cases op <;> exact congrArg Except.ok (Option.some.inj hi)

theorem exists_decode_of_legal {w : Word} (hop : w.toNat % 16 < 12) (h : w.toNat < 32) :
    ∃ i, decode w = .ok i :=
  ⟨_, decode_of_opcodeMap h (List.getElem?_eq_getElem hop)⟩

/-- Settles O3: OP and the reserved bits leave three cases, and each has its own outcome. -/
theorem decodeIsTotalAndRejectsByCause : Obligations.DecodeIsTotalAndRejectsByCause := by
  intro w
  rw [wordWellFormed_iff]
  obtain hop | hop := Nat.lt_or_ge (w.toNat % 16) 12
  · obtain h | h := Nat.lt_or_ge w.toNat 32
    · obtain ⟨i, hi⟩ := exists_decode_of_legal hop h
      simp [hi, hop, h]
    · simp [decode_of_reserved_bit hop h, hop, h]
  · simp [decode_of_reserved_op hop, hop]

/-! ### Dispatch -/

theorem execWord_of_error {w : Word} {e : CmdError} (h : decode w = .error e) (s : State) :
    execWord w s = .next (raiseError e s) := by simp [execWord, h]

theorem execWord_of_command {w : Word} {i : Instr} (h : decode w = .ok i) (s : State) :
    execWord w s = exec i s := by simp [execWord, h]

/-- Settles O6: `Exec(w)` follows the decoder's three outcomes, and raising an error has the effect
`afterError` writes out. -/
theorem execOfWordDispatchesByOpAndReservedBits :
    Obligations.ExecOfWordDispatchesByOpAndReservedBits := by
  intro w s
  refine ⟨fun hop => ?_, fun hop h => ?_, fun h i hi => ?_⟩
  · exact execWord_of_error (decode_of_reserved_op hop) s
  · exact execWord_of_error (decode_of_reserved_bit hop h) s
  · rw [← variantField_of_lt h] at hi
    exact execWord_of_command (decode_of_opcodeMap h hi) s

end Sys2Proof
end

section
/-! PROOF. The statements of 40_codec.md on the codec commands and on the syndrome: the bits the column
loop computes and its linearity, what the two locators find, and the bits of CW a correction flips. -/

namespace Sys2Proof.Machine

open Sys2Proof.Claims

/-! ### The column loop (40_codec.md R133, R134) -/

theorem xorSum_congr {k : Nat} {f g : Nat → Bool} (h : ∀ j < k, f j = g j) :
    xorSum k f = xorSum k g := by
  induction k with
  | zero => rfl
  | succ k ih => rw [xorSum, xorSum, ih fun j hj => h j (by omega), h k (by omega)]

/-- Row i of the loop is the XOR of the products of row i of the matrix with x (40_codec.md R134). -/
theorem getMsbD_sumColumnsUpTo {r n k : Nat} (H : GfMatrix r n) (x : BitVec k) (m : Nat) {i : Nat}
    (hi : i < r) :
    (sumColumnsUpTo H x m).getMsbD i = xorSum m fun j => entry H i j && x.getMsbD j := by
  induction m with
  | zero => simp [xorSum]
  | succ m ih =>
    rw [sumColumnsUpTo_succ, xorSum, ← ih]
    cases x.getMsbD m <;> simp [getMsbD_col, hi]

theorem sumColumnsUpTo_succ_eq_xor {r n k : Nat} (H : GfMatrix r n) (x : BitVec k) (m : Nat) :
    sumColumnsUpTo H x (m + 1) = sumColumnsUpTo H x m ^^^ (if x.getMsbD m then col H m else 0) := by
  rw [sumColumnsUpTo_succ]
  split <;> simp

theorem sumColumnsUpTo_xor {r n k : Nat} (H : GfMatrix r n) (x y : BitVec k) (m : Nat) :
    sumColumnsUpTo H (x ^^^ y) m = sumColumnsUpTo H x m ^^^ sumColumnsUpTo H y m := by
  induction m with
  | zero => simp
  | succ m ih =>
    have hterm : (if (x ^^^ y).getMsbD m then col H m else 0) =
        (if x.getMsbD m then col H m else 0) ^^^ (if y.getMsbD m then col H m else 0) := by
      rw [BitVec.getMsbD_xor]
      cases x.getMsbD m <;> cases y.getMsbD m <;> simp
    simp only [sumColumnsUpTo_succ_eq_xor, ih, hterm]
    ac_rfl

/-- The loop over a word with a single 1 picks up that column when it passes it (40_codec.md R135). -/
theorem sumColumnsUpTo_positionMask {r n k p : Nat} (H : GfMatrix r n) (hp : p < k) (m : Nat) :
    sumColumnsUpTo H (positionMask k p) m = if p < m then col H p else 0 := by
  induction m with
  | zero => simp
  | succ m ih =>
    rw [sumColumnsUpTo_succ, getMsbD_positionMask, ih]
    obtain h | rfl | h := Nat.lt_trichotomy m p
    · simp [h.ne, show ¬p < m by omega, show ¬p < m + 1 by omega]
    · simp [hp]
    · simp [h.ne', h, show p < m + 1 by omega]

/-! ### The syndrome (40_codec.md R134, R135) -/

theorem getMsbD_syn (H : Matrices) (v : Variant) (c : BitVec v.width) {i : Nat} (hi : i < v.parity) :
    (syn H v c).getMsbD i = xorSum v.width fun j => entry (H.of v) i j && c.getMsbD j :=
  getMsbD_sumColumnsUpTo (H.of v) c v.width hi

theorem syn_xor (H : Matrices) (v : Variant) (c e : BitVec v.width) :
    syn H v (c ^^^ e) = syn H v c ^^^ syn H v e := sumColumnsUpTo_xor (H.of v) c e v.width

theorem syn_zero (H : Matrices) (v : Variant) : syn H v 0 = 0 := by
  simpa using syn_xor H v 0 0

theorem syn_positionMask (H : Matrices) (v : Variant) {p : Nat} (hp : p < v.width) :
    syn H v (positionMask v.width p) = col (H.of v) p := by
  rw [syn, sumColumns_eq, sumColumnsUpTo_positionMask _ hp, if_pos hp]

/-- Two different positions share no bit, so setting both is their XOR. -/
theorem positionMask_or {n p q : Nat} (hpq : p ≠ q) :
    positionMask n p ||| positionMask n q = positionMask n p ^^^ positionMask n q := by
  apply BitVec.eq_of_getMsbD_eq
  intro i _
  rw [BitVec.getMsbD_or, BitVec.getMsbD_xor, getMsbD_positionMask, getMsbD_positionMask]
  by_cases hi : i = p <;> simp [hi, hpq]

/-- Settles O27: the column loop is additive, and on a single position it is that column. -/
theorem syndromeIsLinear : Obligations.SyndromeIsLinear := by
  refine fun H v => ⟨syn_xor H v, syn_zero H v, fun p hp => syn_positionMask H v hp, ?_⟩
  intro p hp q hq hpq
  rw [positionMask_or hpq, syn_xor, syn_positionMask H v hp, syn_positionMask H v hq]

/-! ### The syndrome and the code word in their registers -/

theorem parity_le (v : Variant) : v.parity ≤ 8 := by cases v <;> decide
theorem width_le (v : Variant) : v.width ≤ 16 := by cases v <;> decide
theorem width_pos (v : Variant) : 0 < v.width := Nat.add_pos_left (by decide) _

/-- Position i of an n-bit value is bit n-1-i of the wider register that holds it (00_scope.md R11). -/
theorem getLsbD_setWidth_position {n m : Nat} (h : n ≤ m) (x : BitVec n) {i : Nat} (hi : i < n) :
    (x.setWidth m).getLsbD (n - 1 - i) = x.getMsbD i := by
  simp [BitVec.getMsbD, hi, show n - 1 - i < m by omega]

/-- Position i of the low n bits of a register is its bit n-1-i (00_scope.md R11). -/
theorem getMsbD_setWidth_position {n m : Nat} (x : BitVec m) {i : Nat} (hi : i < n) :
    (x.setWidth n).getMsbD i = x.getLsbD (n - 1 - i) := by
  simp only [BitVec.getMsbD, BitVec.getLsbD_setWidth, hi, show n - 1 - i < n by omega, decide_true,
    Bool.true_and]

theorem zextSyndrome_inj (v : Variant) {S T : BitVec v.parity} :
    zextSyndrome v S = zextSyndrome v T ↔ S = T := by
  have hval (U : BitVec v.parity) : (zextSyndrome v U).toNat = U.toNat :=
    BitVec.toNat_setWidth_of_le (parity_le v)
  rw [← BitVec.toNat_inj, hval, hval, BitVec.toNat_inj]

theorem zextSyndrome_zero (v : Variant) : zextSyndrome v 0 = 0 := BitVec.setWidth_zero _ _

theorem zextSyndrome_xor (v : Variant) (S T : BitVec v.parity) :
    zextSyndrome v (S ^^^ T) = zextSyndrome v S ^^^ zextSyndrome v T := BitVec.setWidth_xor

theorem getLsbD_zextSyndrome_of_ge (v : Variant) (S : BitVec v.parity) {k : Nat} (hk : v.parity ≤ k) :
    (zextSyndrome v S).getLsbD k = false := by
  simp [zextSyndrome, BitVec.getLsbD_of_ge S k hk]

/-- The bits of SYN after SYND.V or DECODE.V, from the bits of CW (40_codec.md R134). -/
theorem getLsbD_zextSyndrome_syn (H : Matrices) (v : Variant) (s : State) {i : Nat}
    (hi : i < v.parity) :
    (zextSyndrome v (syn H v (codeWord v s))).getLsbD (v.parity - 1 - i) =
      xorSum v.width fun j => entry (H.of v) i j && s.cw.getLsbD (v.width - 1 - j) := by
  rw [zextSyndrome, getLsbD_setWidth_position (parity_le v) _ hi, getMsbD_syn H v _ hi]
  exact xorSum_congr fun j hj => by rw [codeWord, getMsbD_setWidth_position _ hj]

theorem getLsbD_insertCodeWord_of_lt (v : Variant) (cw : BitVec 16) (c : BitVec v.width) {k : Nat}
    (hk : k < v.width) : (insertCodeWord v cw c).getLsbD k = c.getLsbD k := by
  conv_rhs => rw [← setWidth_insertCodeWord v cw c, BitVec.getLsbD_setWidth, decide_eq_true hk,
    Bool.true_and]

/-! ### The flags of a syndrome and a locator result (10_state.md R42) -/

theorem synnzFlag_eq (v : Variant) (S : BitVec v.parity) :
    synnzFlag S = decide (zextSyndrome v S ≠ 0) := by
  rw [← zextSyndrome_bne_zero, Bool.eq_iff_iff]
  simp

theorem corrFlag_eq (L : Locator) : corrFlag L = decide (L ≠ .none) := by
  rw [corrFlag, Bool.eq_iff_iff]
  simp

theorem uncorrFlag_eq (v : Variant) (S : BitVec v.parity) (L : Locator) :
    uncorrFlag S L = decide (zextSyndrome v S ≠ 0 ∧ L = .none) := by
  have hS : (S != 0) = decide (zextSyndrome v S ≠ 0) := synnzFlag_eq v S
  rw [uncorrFlag, hS, Bool.eq_iff_iff]
  simp

/-! ### The locators (40_codec.md R136 to R138) -/

/-- In a list sorted by R, `find?` answers the R-least match. -/
theorem eq_or_rel_of_find?_eq_some {α : Type} {R : α → α → Prop} {p : α → Bool} {l : List α}
    {a b : α} (hl : l.Pairwise R) (ha : l.find? p = some a) (hb : b ∈ l) (hpb : p b = true) :
    b = a ∨ R a b := by
  obtain ⟨-, before, after, rfl, hbefore⟩ := List.find?_eq_some_iff_append.mp ha
  obtain hb | hb := List.mem_append.mp hb
  · exact absurd hpb (by simpa using hbefore b hb)
  · obtain rfl | hb := List.mem_cons.mp hb
    · exact .inl rfl
    · exact .inr ((List.pairwise_cons.mp (List.pairwise_append.mp hl).2.1).1 b hb)

/-- The two outcomes of the SEC scan: no column equals S, or LOC names the first that does (40_codec.md
R136). -/
theorem locSec_cases (H : GfMatrix 4 12) (S : BitVec 4) :
    (locSec H S = .none ∧ ∀ a < 12, col H a ≠ S) ∨
      ∃ a : Fin 12, locSec H S = .single a ∧ col H a = S ∧ ∀ i < a.val, col H i ≠ S := by
  unfold locSec
  cases hfind : (List.finRange 12).find? (fun i : Fin 12 => col H i == S) with
  | none =>
    refine .inl ⟨rfl, fun a ha hcol => ?_⟩
    exact List.find?_eq_none.mp hfind ⟨a, ha⟩ (List.mem_finRange _) (by simpa using hcol)
  | some a =>
    refine .inr ⟨a, rfl, by simpa using List.find?_some hfind, fun i hi hcol => ?_⟩
    have hi12 : i < 12 := hi.trans a.isLt
    obtain h | h := eq_or_rel_of_find?_eq_some (b := ⟨i, hi12⟩) (List.pairwise_lt_finRange 12) hfind
      (List.mem_finRange _) (by simpa using hcol)
    · simp [← h] at hi
    · exact absurd hi (Nat.lt_asymm h)

/-- The order in which the DEC scan takes the pairs (40_codec.md R137). -/
def PairBefore (p q : Fin 16 × Fin 16) : Prop := p.1 < q.1 ∨ p.1 = q.1 ∧ p.2 < q.2

theorem pairwise_columnPairs : columnPairs.Pairwise PairBefore := by
  have hfin : (List.finRange 16).Pairwise (· < ·) := List.pairwise_lt_finRange 16
  refine List.pairwise_flatMap.mpr ⟨fun i _ => ?_, hfin.imp fun {i i'} h p hp q hq => ?_⟩
  · exact List.pairwise_map.mpr ((hfin.filter _).imp fun h => .inr ⟨rfl, h⟩)
  · obtain ⟨-, -, rfl⟩ := List.mem_map.mp hp
    obtain ⟨-, -, rfl⟩ := List.mem_map.mp hq
    exact .inl h

/-- The two outcomes of the DEC scan: no pair has the XOR S, or LOC names the lexicographically first
that has (40_codec.md R137). -/
theorem locDec_cases (H : GfMatrix 8 16) (S : BitVec 8) :
    (locDec H S = .none ∧ ∀ b < 16, ∀ a < b, col H a ^^^ col H b ≠ S) ∨
      ∃ a b : Fin 16, locDec H S = .pair a b ∧ a < b ∧ col H a ^^^ col H b = S ∧
        ∀ j < 16, ∀ i < j, (i < a.val ∨ i = a.val ∧ j < b.val) → col H i ^^^ col H j ≠ S := by
  unfold locDec
  cases hfind : columnPairs.find? (fun p : Fin 16 × Fin 16 => col H p.1 ^^^ col H p.2 == S) with
  | none =>
    refine .inl ⟨rfl, fun b hb a hab hsum => ?_⟩
    exact List.find?_eq_none.mp hfind (⟨a, hab.trans hb⟩, ⟨b, hb⟩) ((mem_columnPairs _).mpr hab)
      (by simpa using hsum)
  | some p =>
    obtain ⟨a, b⟩ := p
    refine .inr ⟨a, b, rfl, (mem_columnPairs _).mp (List.mem_of_find?_eq_some hfind),
      by simpa using List.find?_some hfind, fun j hj i hij hbefore hsum => ?_⟩
    obtain h | h := eq_or_rel_of_find?_eq_some (b := (⟨i, hij.trans hj⟩, ⟨j, hj⟩))
      pairwise_columnPairs hfind ((mem_columnPairs _).mpr hij) (by simpa using hsum)
    · simp only [Prod.mk.injEq, Fin.ext_iff] at h
      omega
    · simp only [PairBefore, Fin.lt_def, Fin.ext_iff] at h
      omega

/-- The model's locator answers the result the claims describe: the comparisons of columns are the same
after zero-extension (40_codec.md R138). -/
theorem locatesTo_locate (H : Matrices) (v : Variant) (S : BitVec v.parity) :
    LocatesTo H v (zextSyndrome v S) (locate H v S) := by
  have hcol (j : Nat) : column H v j = zextSyndrome v (col (H.of v) j) := rfl
  by_cases hS : S = 0
  · rw [hS, locate_zero]
    exact .inl (zextSyndrome_zero v)
  · have hne : zextSyndrome v S ≠ 0 := by
      rwa [← zextSyndrome_zero v, ne_eq, zextSyndrome_inj]
    simp only [locate, if_neg hS]
    cases v with
    | sec =>
      obtain ⟨hL, hnone⟩ | ⟨a, hL, hmatch, hfirst⟩ := locSec_cases H.sec S
      · simp only [hL, LocatesTo, hcol, ne_eq, zextSyndrome_inj]
        exact .inr hnone
      · simp only [hL, LocatesTo, hcol, ne_eq, zextSyndrome_inj]
        exact ⟨trivial, hne, hmatch, hfirst⟩
    | dec =>
      obtain ⟨hL, hnone⟩ | ⟨a, b, hL, hab, hmatch, hfirst⟩ := locDec_cases H.dec S
      · simp only [hL, LocatesTo, hcol, ← zextSyndrome_xor, ne_eq, zextSyndrome_inj]
        exact .inr hnone
      · simp only [hL, LocatesTo, hcol, ← zextSyndrome_xor, ne_eq, zextSyndrome_inj]
        exact ⟨trivial, hne, hab, hmatch, hfirst⟩

/-- A locator result is one LOC can hold (10_state.md R40). -/
theorem reachable_locate (H : Matrices) (v : Variant) (S : BitVec v.parity) :
    LocReg.Reachable { result := locate H v S, lv := v } := by
  have h := locatesTo_locate H v S
  cases hL : locate H v S with
  | none => trivial
  | single a =>
    rw [hL] at h
    obtain ⟨hv, -⟩ := h
    exact hv
  | pair a b =>
    rw [hL] at h
    obtain ⟨hv, -, hab, -⟩ := h
    exact ⟨hv, hab⟩

/-! ### Correction (40_codec.md R139) -/

theorem getLsbD_positionMask {n p : Nat} (hp : p < n) (k : Nat) :
    (positionMask n p).getLsbD k = (k == n - 1 - p) := by
  have hlt : n - 1 - p < n := by omega
  rw [positionMask, if_pos hp, BitVec.getLsbD_twoPow, decide_eq_true hlt, Bool.true_and,
    Bool.eq_iff_iff, decide_eq_true_iff, beq_iff_eq]
  exact eq_comm

theorem xor_eq_or {x y : Bool} (h : (x && y) = false) : Bool.xor x y = (x || y) := by
  revert x y; decide

/-- Correction flips the bits of the positions the result names. The positions of a PAIR differ, so
their flips do not cancel (10_state.md R40). -/
theorem getLsbD_flipLocated {v : Variant} {L : Locator}
    (hL : LocReg.Reachable { result := L, lv := v }) (c : BitVec v.width) (k : Nat) :
    (flipLocated v c L).getLsbD k = Bool.xor (c.getLsbD k) (flips v L k) := by
  have hmask {a : Nat} (ha : a < v.width) :
      (positionMask v.width a).getLsbD k = (k == v.width - 1 - a) := getLsbD_positionMask ha k
  cases L with
  | none => exact (Bool.xor_false _).symm
  | single a =>
    have ha : a.val < v.width := by rw [show v = .sec from hL]; exact a.isLt
    rw [flipLocated, BitVec.getLsbD_xor, hmask ha, flips]
  | pair a b =>
    obtain ⟨hv, hab⟩ : v = .dec ∧ a < b := hL
    have ha : a.val < v.width := by rw [hv]; exact a.isLt
    have hb : b.val < v.width := by rw [hv]; exact b.isLt
    have hdistinct : ((k == v.width - 1 - a.val) && (k == v.width - 1 - b.val)) = false := by
      rw [Bool.and_eq_false_imp]
      simp only [beq_iff_eq, beq_eq_false_iff_ne]
      omega
    rw [flipLocated, BitVec.getLsbD_xor, BitVec.getLsbD_xor, hmask ha, hmask hb, flips,
      Bool.xor_assoc, xor_eq_or hdistinct]

theorem flips_of_ge (v : Variant) (L : Locator) {k : Nat} (hk : v.width ≤ k) :
    flips v L k = false := by
  have hne (a : Nat) : (k == v.width - 1 - a) = false := by
    have hpos := width_pos v
    simp only [beq_eq_false_iff_ne]
    omega
  cases L <;> simp only [flips, hne, Bool.or_self]

/-- Correction in place flips in CW exactly the bits of the positions LOC names, and keeps every bit
above the code word (10_state.md R36). -/
theorem getLsbD_insertCodeWord_flipLocated (cw : BitVec 16) {v : Variant} {L : Locator}
    (hL : LocReg.Reachable { result := L, lv := v }) (k : Nat) :
    (insertCodeWord v cw (flipLocated v (cw.setWidth v.width) L)).getLsbD k =
      Bool.xor (cw.getLsbD k) (flips v L k) := by
  obtain hk | hk := Nat.lt_or_ge k v.width
  · rw [getLsbD_insertCodeWord_of_lt v _ _ hk, getLsbD_flipLocated hL, BitVec.getLsbD_setWidth,
      decide_eq_true hk, Bool.true_and]
  · rw [getLsbD_insertCodeWord_of_ge v _ _ hk, flips_of_ge v L hk, Bool.xor_false]

/-! ### The commands -/

/-- Settles O18: the update is NOP's whole effect. -/
theorem nopCompletesAndWritesLastopOnly : Obligations.NopCompletesAndWritesLastopOnly := fun s =>
  exec_eq_runCommand .nop s

theorem getMsbD_byte (d : Byte) {p : Nat} (hp : p < 8) : d.getMsbD p = d.getLsbD (7 - p) := by
  simp [BitVec.getMsbD, hp]

/-- The first 8 positions of a code word are the data bits unchanged (40_codec.md R133). -/
theorem getMsbD_enc_data (H : Matrices) (v : Variant) (d : Byte) {p : Nat} (hp : p < 8) :
    (enc H v d).getMsbD p = d.getLsbD (7 - p) := by
  rw [enc, BitVec.getMsbD_append, if_neg (Nat.not_le.mpr hp), getMsbD_byte d hp]

/-- The parity positions of a code word, which only the data columns enter (40_codec.md R133). -/
theorem getMsbD_enc_parity (H : Matrices) (v : Variant) (d : Byte) {i : Nat} (hi : i < v.parity) :
    (enc H v d).getMsbD (8 + i) = xorSum 8 fun j => entry (H.of v) i j && d.getLsbD (7 - j) := by
  rw [enc, BitVec.getMsbD_append, if_pos (Nat.le_add_right 8 i), Nat.add_sub_cancel_left,
    sumColumns_eq, getMsbD_sumColumnsUpTo _ _ _ hi]
  exact xorSum_congr fun j hj => by rw [getMsbD_byte d hj]

/-- Settles O19: the positions of the code word, read as register bits of CW. -/
theorem encCompletesWithSystematicCodeWord : Obligations.EncCompletesWithSystematicCodeWord := by
  intro v s
  refine ⟨zextCodeWord v (enc Config.matrices v s.data), exec_eq_runCommand (.enc v) s, ?_, ?_,
    fun k => getLsbD_zextCodeWord_of_ge v _⟩
  · intro p hp
    rw [zextCodeWord, getLsbD_setWidth_position (width_le v) _ (Nat.lt_add_right _ hp),
      getMsbD_enc_data _ v _ hp]
  · intro i hi
    have hpos : v.parity - 1 - i = v.width - 1 - (8 + i) := by simp only [Variant.width]; omega
    rw [hpos, zextCodeWord, getLsbD_setWidth_position (width_le v) _ (Nat.add_lt_add_left hi 8),
      getMsbD_enc_parity _ v _ hi]

/-- Settles O20: the column loop's bits, zero-extended into SYN. -/
theorem syndCompletesWithSyndromeOfCw : Obligations.SyndCompletesWithSyndromeOfCw := by
  intro v s
  refine ⟨zextSyndrome v (syn Config.matrices v (codeWord v s)), ?_,
    fun i => getLsbD_zextSyndrome_syn _ v s, fun k => getLsbD_zextSyndrome_of_ge v _⟩
  rw [exec_eq_runCommand, ← synnzFlag_eq]
  rfl

/-- Settles O21: the model's locator result of the syndrome operand. -/
theorem locateCompletesWithFirstMatch : Obligations.LocateCompletesWithFirstMatch := by
  intro v s
  refine ⟨locate Config.matrices v (syndromeOperand v s), ?_, ?_⟩
  · rw [exec_eq_runCommand, syndromeOf_eq_zextSyndrome, ← uncorrFlag_eq]
    rfl
  · rw [syndromeOf_eq_zextSyndrome]
    exact locatesTo_locate _ v _

/-- Settles O22: correction in place of the code word in CW. -/
theorem correctCompletesFlippingLocatedBits : Obligations.CorrectCompletesFlippingLocatedBits := by
  intro s hloc
  refine ⟨_, ?_, fun k _ => getLsbD_insertCodeWord_flipLocated s.cw hloc k⟩
  rw [exec_eq_runCommand, ← corrFlag_eq]
  rfl

/-- The data block is the first 8 positions of the code word (40_codec.md R140 step 4). -/
theorem getLsbD_dataBits (v : Variant) (c : BitVec v.width) {p : Nat} (hp : p < 8) :
    (dataBits v c).getLsbD (7 - p) = c.getLsbD (v.width - 1 - p) := by
  have hpos : v.width - 1 - p = v.parity + (7 - p) := by simp only [Variant.width]; omega
  rw [hpos, dataBits, BitVec.getLsbD_setWidth, BitVec.getLsbD_ushiftRight,
    decide_eq_true (show 7 - p < 8 by omega), Bool.true_and]

/-- Settles O24: the steps of `decode_V` put together, with a locator result that LOC can hold. -/
theorem decodeCompletesWithCorrectedData : Obligations.DecodeCompletesWithCorrectedData := by
  intro v s
  let S := syn Config.matrices v (codeWord v s)
  let L := locate Config.matrices v S
  let c := flipLocated v (codeWord v s) L
  refine ⟨zextSyndrome v S, L, insertCodeWord v s.cw c, dataBits v c, ?_,
    fun i => getLsbD_zextSyndrome_syn _ v s, fun k => getLsbD_zextSyndrome_of_ge v _,
    locatesTo_locate _ v _,
    fun k _ => getLsbD_insertCodeWord_flipLocated s.cw (reachable_locate _ v _) k, ?_⟩
  · rw [exec_eq_runCommand, ← synnzFlag_eq, ← corrFlag_eq, ← uncorrFlag_eq]
    rfl
  · intro p hp
    have hlt : v.width - 1 - p < v.width := by have := width_pos v; omega
    rw [getLsbD_insertCodeWord_of_lt v _ _ hlt, getLsbD_dataBits v _ hp]

end Sys2Proof.Machine
end

section
/-! PROOF. The statements of 41_stream.md on the stream commands: the operands as bits in stream order,
what an append or FLUSH's padding leaves in the packer, and the word a pull takes from the unpacker. -/

namespace Sys2Proof.Machine

open Sys2Proof.Claims

/-! ### The operands in stream order (41_stream.md R180) -/

theorem bits_eq_byteBits (b : Byte) : bits b = byteBits b :=
  List.map_congr_left fun _ hp => getMsbD_byte b (List.mem_range.mp hp)

theorem bits_codeWord (v : Variant) (s : State) : bits (codeWord v s) = cwBits v s.cw :=
  List.map_congr_left fun _ hp => getMsbD_setWidth_position s.cw (List.mem_range.mp hp)

theorem length_byteBits (b : Byte) : (byteBits b).length = 8 := by simp [byteBits]

/-- A byte made of eight stream bits holds those bits (00_scope.md R11). -/
theorem byteBits_ofNat_val {t : List Bool} (h : t.length = 8) :
    byteBits (BitVec.ofNat 8 (val t)) = t := by
  rw [← bits_eq_byteBits, ← h]
  exact bits_ofNat_val t

/-! ### The packer (41_stream.md R181 to R184) -/

/-- Packing loses no bit: what is not in a completed byte is in the residue (41_stream.md R181). -/
theorem length_of_packsTo {stream : List Bool} {p : PkOut} {q : List Bool} (h : PacksTo stream p q) :
    stream.length = 8 * p.nout.toNat + q.length := by
  obtain ⟨-, ⟨rfl, rfl⟩ | ⟨x, rfl, rfl⟩ | ⟨x, y, rfl, rfl⟩⟩ := h
  · simp
  · simp [length_byteBits]
  · simp only [List.length_append, length_byteBits, BitVec.reduceToNat]

/-- An append that completes one or two bytes cuts the stream into them and the residue. With no byte
complete `packAppend` would leave the residue's value in B0, but a command appends 8 bits or more. -/
theorem packsTo_packAppend {new : List Bool} {s : State} (hmin : 8 ≤ (s.pq ++ new).length)
    (hmax : (s.pq ++ new).length < 24) :
    PacksTo (s.pq ++ new) (packAppend new s).pkout (packAppend new s).pq := by
  have hres : (packAppend new s).pq.length ≤ 7 := by rw [length_packAppend_pq]; omega
  refine ⟨hres, .inr ?_⟩
  unfold packAppend
  generalize s.pq ++ new = t at hmin hmax ⊢
  have hfirst : byteBits (BitVec.ofNat 8 (val (t.take 8))) = t.take 8 :=
    byteBits_ofNat_val (by rw [List.length_take]; omega)
  obtain hlt | hge := Nat.lt_or_ge t.length 16
  · have hk : t.length / 8 = 1 := by omega
    refine .inl ⟨BitVec.ofNat 8 (val (t.take 8)), ?_, by simp [hk]⟩
    simp only [hfirst, hk]
    exact (List.take_append_drop 8 t).symm
  · have hk : t.length / 8 = 2 := by omega
    have hsecond : byteBits (BitVec.ofNat 8 (val ((t.drop 8).take 8))) = (t.drop 8).take 8 :=
      byteBits_ofNat_val (by rw [List.length_take, List.length_drop]; omega)
    refine .inr ⟨BitVec.ofNat 8 (val (t.take 8)), BitVec.ofNat 8 (val ((t.drop 8).take 8)), ?_,
      by simp [hk]⟩
    simp only [hfirst, hsecond, hk]
    rw [← List.take_add, List.take_append_drop]

/-- Settles O36: the code word's 12 or 16 bits after a residue complete one or two bytes. -/
theorem packcwCompletesCuttingTheStream : Obligations.PackcwCompletesCuttingTheStream := by
  intro v s hres
  refine ⟨_, _, exec_eq_runCommand (.packcw v) s, ?_⟩
  have hlen : (s.pq ++ bits (codeWord v s)).length = s.pq.length + (8 + v.parity) := by simp
  have hparity := parity_le v
  rw [← bits_codeWord]
  exact packsTo_packAppend (by omega) (by omega)

/-- Settles O37: eight bits after a residue of at most 7 leave, by length, one byte and a residue as
long as before. -/
theorem packdataCompletesOneByte : Obligations.PackdataCompletesOneByte := by
  intro s hres
  have hlen : (s.pq ++ byteBits s.data).length = s.pq.length + 8 := by simp [length_byteBits]
  have hpack : PacksTo (s.pq ++ byteBits s.data) (packAppend (bits s.data) s).pkout
      (packAppend (bits s.data) s).pq := by
    rw [← bits_eq_byteBits] at hlen ⊢
    exact packsTo_packAppend (by omega) (by omega)
  have hcut := length_of_packsTo hpack
  have ⟨hq, _⟩ := hpack
  exact ⟨_, _, exec_eq_runCommand .packdata s, hpack, by bv_omega, by omega⟩

/-- A residue and its pad fill one byte (41_stream.md R184, R188(b)). -/
theorem padBits_of_residue {n : Nat} (hpos : 0 < n) (hle : n ≤ 7) : padBits n = zeros (8 - n) := by
  have hcount : (8 - n % 8) % 8 = 8 - n := by omega
  rw [padBits, hcount, zeros]

/-- FLUSH's queue part changes PKOUT and PQ alone, and leaves PQ empty (41_stream.md R184). -/
theorem packFlush_eq (s : State) :
    packFlush s = { s with pkout := (packFlush s).pkout, pq := [] } := by
  obtain ⟨hempty, hflush⟩ | ⟨-, hflush⟩ := packFlush_cases s
  · rw [hflush, ← hempty]
  · rw [hflush]

/-- FLUSH emits the residue padded with zero bits to a byte, and nothing without a residue
(41_stream.md R184). -/
theorem packsTo_packFlush {s : State} (hres : s.pq.length ≤ 7) :
    PacksTo (s.pq ++ padBits s.pq.length) (packFlush s).pkout [] := by
  refine ⟨Nat.zero_le 7, ?_⟩
  obtain ⟨hempty, hflush⟩ | ⟨hpos, hflush⟩ := packFlush_cases s
  · rw [hflush, hempty]
    exact .inl ⟨rfl, rfl⟩
  · have hlen : (s.pq ++ zeros (8 - s.pq.length)).length = 8 := by
      simp only [List.length_append, length_zeros]
      omega
    rw [hflush, padBits_of_residue hpos hres]
    exact .inr (.inl ⟨_, by rw [byteBits_ofNat_val hlen, List.append_nil], rfl⟩)

theorem packFlush_nout_eq_zero_iff (s : State) : (packFlush s).pkout.nout = 0 ↔ s.pq = [] := by
  obtain ⟨hempty, hflush⟩ | ⟨hpos, hflush⟩ := packFlush_cases s
  · rw [hflush]
    exact iff_of_true rfl hempty
  · rw [hflush]
    exact iff_of_false (show (1 : BitVec 2) ≠ 0 by decide) (List.ne_nil_of_length_pos hpos)

/-- Settles O38: FLUSH's queue part, and LASTOP. -/
theorem flushCompletesPaddingTheResidue : Obligations.FlushCompletesPaddingTheResidue := by
  intro s hres
  refine ⟨(packFlush s).pkout, ?_, packsTo_packFlush hres, packFlush_nout_eq_zero_iff s⟩
  rw [exec_eq_runCommand, runCommand, flushEffect, packFlush_eq]
  rfl

/-! ### The unpacker (41_stream.md R185, R186) -/

/-- Settles O39: the two outcomes of UPUSH. -/
theorem upushAppendsDataOrRaisesUpovf : Obligations.UpushAppendsDataOrRaisesUpovf := by
  intro s
  rw [exec_eq_runCommand, runCommand]
  obtain ⟨hfull, hraise⟩ | ⟨hfits, hpush⟩ := upushEffect_cases s
  · exact ⟨fun h => absurd hfull (Nat.not_lt.mpr h), fun _ => by rw [hraise]; rfl⟩
  · refine ⟨fun _ => ?_, fun h => absurd h (Nat.not_lt.mpr hfits)⟩
    rw [hpush, bits_eq_byteBits]
    rfl

theorem queueAfterPull_eq_drop (n : Nat) (uq : List Bool) : queueAfterPull n uq = uq.drop n := by
  obtain hshort | hfull := Nat.lt_or_ge uq.length n
  · rw [queueAfterPull_short hshort, List.drop_eq_nil_of_le hshort.le]
  · exact queueAfterPull_full hfull

/-- Position p of a pulled word is the queue's bit p, or 0 past its end (41_stream.md R186). -/
theorem getD_pulledBits {n p : Nat} (uq : List Bool) (hp : p < n) :
    (pulledBits n uq).getD p false = uq.getD p false := by
  obtain hshort | hfull := Nat.lt_or_ge uq.length n
  · rw [pulledBits_short hshort]
    obtain hq | hpad := Nat.lt_or_ge p uq.length
    · exact List.getD_append _ _ _ _ hq
    · rw [List.getD_append_right _ _ _ _ hpad, List.getD_eq_default _ _ hpad, zeros,
        List.getD_eq_getElem?_getD, List.getElem?_getD_replicate_default_eq]
  · simp only [pulledBits_full hfull, List.getD_eq_getElem?_getD, List.getElem?_take_of_lt hp]

/-- Settles O40: the two outcomes of UPULL, and the pulled word's positions as register bits of CW. -/
theorem upullTakesPaddedWordOrRaisesUpempty : Obligations.UpullTakesPaddedWordOrRaisesUpempty := by
  intro v s
  rw [exec_eq_runCommand, runCommand]
  obtain ⟨hempty, hraise⟩ | ⟨hne, hpull⟩ := upullEffect_cases v s
  · exact ⟨fun h => absurd hempty h, fun _ => by rw [hraise]; rfl⟩
  · refine ⟨fun _ => ⟨zextCodeWord v (BitVec.ofNat v.width (val (pulledBits v.width s.uq))), ?_,
      fun p hp => ?_, fun k => getLsbD_zextCodeWord_of_ge v _⟩, fun h => absurd h hne⟩
    · rw [hpull, queueAfterPull_eq_drop]
      rfl
    · rw [zextCodeWord, getLsbD_setWidth_position (width_le v) _ hp,
        getMsbD_ofNat_val _ (length_pulledBits _ _), getD_pulledBits _ hp]

/-! ### The whole stream state (41_stream.md R187) -/

/-- Settles O41: the update is SCLR's whole effect. -/
theorem sclrCompletesClearingTheStream : Obligations.SclrCompletesClearingTheStream := fun s =>
  exec_eq_runCommand .sclr s

end Sys2Proof.Machine
end

section
/-! PROOF. The statement of 60_exceptions.md on the causes of a command error: the words that raise one
are settled by the dispatch and by the two stream commands' own statements; every other word runs a
command that is not in error, and such a command keeps ERR, ERRCODE and the record. -/

namespace Sys2Proof.Machine

open Sys2Proof.Claims

/-! ### A command that is not in error -/

/-- No row of the STATUS table writes ERR (10_state.md R42). -/
@[simp] theorem statusAfter_err (i : Instr) (s t : State) :
    (statusAfter i s t).err = s.status.err := by cases i <;> rfl

/-- No row of the STATUS table writes ERRCODE (10_state.md R42). -/
@[simp] theorem statusAfter_errcode (i : Instr) (s t : State) :
    (statusAfter i s t).errcode = s.status.errcode := by cases i <;> rfl

/-- Only the error itself is recorded (60_exceptions.md R222, log entry 5). -/
theorem runCommand_errLog_of_not_raisesOwnError (H : Matrices) {i : Instr} {s : State}
    (h : ¬raisesOwnError i s) : (runCommand H i s).errLog = s.errLog := by
  cases i with
  | nop | enc | synd | locate | correct | decode | packcw | packdata | sclr => rfl
  | flush => exact packFlush_errLog s
  | upush =>
    obtain ⟨hfull, -⟩ | ⟨-, hpush⟩ := upushEffect_cases s
    · exact absurd (.inl ⟨rfl, hfull⟩) h
    · rw [runCommand, hpush]
  | upull v =>
    obtain ⟨hempty, -⟩ | ⟨-, hpull⟩ := upullEffect_cases v s
    · exact absurd (.inr ⟨v, rfl, hempty⟩) h
    · rw [runCommand, hpull]

/-! ### The causes by command word -/

/-- Every command stands in the opcode map at its own OP (30_encoding.md R102). -/
theorem toNat_opOf_of_opcodeMap {v : Variant} {op : Nat} {i : Instr}
    (hi : (opcodeMap v)[op]? = some i) : (opOf i).toNat = op := by
  have hop : op < 12 := (List.getElem?_eq_some_iff.mp hi).1
  interval_cases op <;> cases hi <;> rfl

/-- Only the commands at OP 0x9 and OP 0xA raise an error of their own (41_stream.md R185, R186). -/
theorem op_of_raisesOwnError {v : Variant} {op : Nat} {i : Instr} {s : State}
    (hi : (opcodeMap v)[op]? = some i) (h : raisesOwnError i s) :
    op = 9 ∧ 16 < s.uq.length ∨ op = 10 ∧ s.uq.length = 0 := by
  have hop := toNat_opOf_of_opcodeMap hi
  obtain ⟨rfl, hfull⟩ | ⟨_, rfl, hempty⟩ := h
  · exact .inl ⟨hop.symm, hfull⟩
  · exact .inr ⟨hop.symm, List.length_eq_zero_iff.mpr hempty⟩

/-- A word without reserved bits and with OP 0x9 is UPUSH (30_encoding.md R102). -/
theorem decode_of_op_upush {w : Word} (h : w.toNat < 32) (hop : w.toNat % 16 = 9) :
    decode w = .ok .upush :=
  decode_of_opcodeMap h (by rw [hop]; rfl)

/-- A word without reserved bits and with OP 0xA is UPULL in the word's variant (30_encoding.md R102,
R103). -/
theorem decode_of_op_upull {w : Word} (h : w.toNat < 32) (hop : w.toNat % 16 = 10) :
    decode w = .ok (.upull (variantField w)) :=
  decode_of_opcodeMap h (by rw [hop]; rfl)

/-- Settles O7: each cause by the statement that names its outcome; a word with none of the causes runs
the command at its OP, which is then not in error. -/
theorem commandErrorsFollowTheCauseTable : Obligations.CommandErrorsFollowTheCauseTable := by
  intro w s illop rsvd upovf upempty
  obtain ⟨hillop, hrsvd, -⟩ := execOfWordDispatchesByOpAndReservedBits w s
  refine ⟨hillop, fun ⟨hop, hbit⟩ => hrsvd (Nat.not_le.mp hop) hbit, ?_, ?_, ?_⟩
  · rintro ⟨h, hop, hfull⟩
    rw [execWord_of_command (decode_of_op_upush h hop)]
    exact (upushAppendsDataOrRaisesUpovf s).2 hfull
  · rintro ⟨h, hop, hempty⟩
    rw [execWord_of_command (decode_of_op_upull h hop)]
    exact (upullTakesPaddedWordOrRaisesUpempty _ s).2 (List.length_eq_zero_iff.mp hempty)
  · intro hlegal hclear hfits hqueued
    have hop : w.toNat % 16 < 12 := Nat.not_le.mp hlegal
    have h : w.toNat < 32 := Nat.not_le.mp fun hbit => hclear ⟨hlegal, hbit⟩
    obtain ⟨i, hi⟩ : ∃ i, (opcodeMap (variantField w))[w.toNat % 16]? = some i :=
      ⟨_, List.getElem?_eq_getElem hop⟩
    have hown : ¬raisesOwnError i s := fun hraises =>
      (op_of_raisesOwnError hi hraises).elim (fun hfull => hfits ⟨h, hfull⟩)
        fun hempty => hqueued ⟨h, hempty⟩
    refine ⟨_, (execWord_of_command (decode_of_opcodeMap h hi) s).trans (exec_eq_runCommand _ s),
      ?_, ?_, runCommand_errLog_of_not_raisesOwnError _ hown⟩
    · rw [runCommand_status_of_not_raisesOwnError _ hown, statusAfter_err]
    · rw [runCommand_status_of_not_raisesOwnError _ hown, statusAfter_errcode]

end Sys2Proof.Machine
end

section
/-! PROOF. The statement of 70_reset_and_hazards.md on the reset values: the fields by the record of
R250, and the reads by what each register's word shows of its reset value. -/

namespace Sys2Proof.Machine

/-! ### The register words at their reset values -/

@[simp] theorem statusWord_reset : statusWord .reset = 0 := rfl

/-- NONE located in SEC, the reset value of LOC, reads 0 (10_state.md R38). -/
@[simp] theorem locWord_none_sec : locWord { result := .none, lv := .sec } = 0 := rfl

@[simp] theorem pkoutWord_zero : pkoutWord .zero = 0 := rfl

/-- With both queues empty PKST shows two zero counts (10_state.md R48). -/
theorem pkstWord_of_empty_queues {s : State} (hpq : s.pq = []) (huq : s.uq = []) :
    pkstWord s = 0 := by
  rw [pkstWord, hpq, huq]
  rfl

/-- Every readable register but ID reads 0 after reset, and so does CMD, which has no storage
(70_reset_and_hazards.md R250, 20_memory.md R77). -/
theorem busRead_reset_eq_zero :
    ∀ off ∈ [0x00, 0x04, 0x08, 0x0C, 0x10, 0x14, 0x18, 0x1C], busRead off State.reset = 0 := by
  simp only [List.forall_mem_cons]
  have hcmd : busRead 0x00 State.reset = 0 := rfl
  have hdata : busRead 0x08 State.reset = 0 := rfl
  have hcw : busRead 0x0C State.reset = 0 := rfl
  have hsyn : busRead 0x10 State.reset = 0 := rfl
  have hpkst : busRead 0x1C State.reset = 0 := pkstWord_of_empty_queues rfl rfl
  exact ⟨hcmd, statusWord_reset, hdata, hcw, hsyn, locWord_none_sec, pkoutWord_zero, hpkst,
    List.forall_mem_nil _⟩

/-- Settles O16: the fields are those of the reset record, the zero reads register by register, and ID
is a constant that no state holds. -/
theorem resetLeavesEveryRegisterAtItsValue : Obligations.ResetLeavesEveryRegisterAtItsValue :=
  ⟨rfl, rfl, rfl, rfl, rfl, rfl, busRead_reset_eq_zero, rfl⟩

end Sys2Proof.Machine
end

section
/-! PROOF. The statements of 30_encoding.md on decoder and encoder together: a word decodes to a command
exactly when its three fields of R101 are that command's, and the words with those fields are the
command's words. -/

namespace Sys2Proof

open Machine Claims

/-- The value of a command's word: V above OP, and no reserved bit (30_encoding.md R101, R102). -/
theorem toNat_encode (i : Instr) :
    (encode i).toNat = 16 * (((variantOf i).getD .sec).bit).toNat + (opOf i).toNat := by
  cases i with
  | nop | correct | packdata | flush | upush | sclr => rfl
  | enc v | synd v | locate v | decode v | packcw v | upull v => cases v <;> rfl

/-- The word with bit 4 set of a command that ignores V (30_encoding.md R103). -/
theorem toNat_encode_or_variantBit {i : Instr} (h : variantOf i = none) :
    (encode i ||| 0x10).toNat = 16 + (opOf i).toNat := by
  cases i with
  | nop | correct | packdata | flush | upush | sclr => rfl
  | enc | synd | locate | decode | packcw | upull => cases h

theorem opOf_lt (i : Instr) : (opOf i).toNat < 12 := by
  cases i <;> simp [opOf]

/-- The command stands in the opcode map of any variant it can have (30_encoding.md R102, R103). -/
theorem opcodeMap_opOf {i : Instr} {v : Variant} (h : ∀ x, variantOf i = some x → x = v) :
    (opcodeMap v)[(opOf i).toNat]? = some i := by
  cases i with
  | nop | correct | packdata | flush | upush | sclr => rfl
  | enc x | synd x | locate x | decode x | packcw x | upull x => rw [← h x rfl]; rfl

/-- Every row of the opcode map that has a variant has the map's (30_encoding.md R103). -/
theorem variantOf_of_opcodeMap {v x : Variant} {op : Nat} {i : Instr}
    (hi : (opcodeMap v)[op]? = some i) (hx : variantOf i = some x) : x = v := by
  have hop : op < 12 := (List.getElem?_eq_some_iff.mp hi).1
  interval_cases op <;> cases hi <;> cases hx <;> rfl

/-- A word decodes to a command exactly when it has no reserved bit, the command's OP, and the command's
variant if it has one (30_encoding.md R102 to R104). -/
theorem decode_eq_ok_iff {w : Word} {i : Instr} :
    decode w = .ok i ↔
      w.toNat < 32 ∧ (opOf i).toNat = w.toNat % 16 ∧
        ∀ x, variantOf i = some x → x = variantField w := by
  constructor
  · intro hd
    have hop : w.toNat % 16 < 12 := Nat.not_le.mp fun hop => by
      rw [decode_of_reserved_op hop] at hd; cases hd
    have hw : w.toNat < 32 := Nat.not_le.mp fun hw => by
      rw [decode_of_reserved_bit hop hw] at hd; cases hd
    have hrow : (opcodeMap (variantField w))[w.toNat % 16]? = some i := by
      have hget := List.getElem?_eq_getElem (l := opcodeMap (variantField w)) hop
      rw [decode_of_opcodeMap hw hget] at hd
      rw [hget, Except.ok.inj hd]
    exact ⟨hw, toNat_opOf_of_opcodeMap hrow, fun x hx => variantOf_of_opcodeMap hrow hx⟩
  · rintro ⟨hw, hop, hv⟩
    exact decode_of_opcodeMap hw (hop ▸ opcodeMap_opOf hv)

/-- Settles O2: a word below 32 is its OP and V, so it is the command's word for that V. -/
theorem wordDecodesExactlyToItsCommand : Obligations.WordDecodesExactlyToItsCommand := by
  intro w i
  have hop := opOf_lt i
  rw [decode_eq_ok_iff, ← BitVec.toNat_inj, toNat_encode]
  cases hi : variantOf i with
  | none =>
    rw [← BitVec.toNat_inj, toNat_encode_or_variantBit hi]
    simp [Variant.bit]
    omega
  | some v =>
    have hbelow : w.toNat < 32 ∧ v = variantField w ↔
        w.toNat < 32 ∧ (16 ≤ w.toNat ↔ v.bit = true) := by
      refine and_congr_right fun hw => ?_
      rw [variantField_of_lt hw]
      cases v <;> simp [Variant.bit]
    simp only [Option.some.injEq, forall_eq', Option.getD_some, reduceCtorEq, false_and, or_false]
    rw [and_left_comm, hbelow]
    cases v <;> simp [Variant.bit] <;> omega

/-- Settles O1: the word of a command is one of the words that decode to it. -/
theorem decodeOfEncodeIsTheCommand : Obligations.DecodeOfEncodeIsTheCommand := fun i _ =>
  (wordDecodesExactlyToItsCommand (encode i) i).mpr (.inl rfl)

/-- Settles O4: each word written out is evaluated. -/
theorem opcodeMapSampleWordsDecode : Obligations.OpcodeMapSampleWordsDecode := by
  unfold Obligations.OpcodeMapSampleWordsDecode
  decide

end Sys2Proof
end

section
/-! PROOF. The statements about the whole machine: the frame of each command, register by register, the
life of an error, and the invariant. Every command is taken at arbitrary matrices through `runCommand`,
and a step is taken apart once, by `step_cases`. -/

namespace Sys2Proof.Machine

open Sys2Proof.Claims

/-! ### The frame of a command (10_state.md R34 to R38, R45 to R47) -/

section

variable (H : Matrices) {i : Instr} {s : State}

/-- UPUSH writes UQ, STATUS and the record, and nothing else (41_stream.md R185). -/
theorem upushEffect_eq (s : State) :
    upushEffect s =
      { s with
        uq := (upushEffect s).uq, status := (upushEffect s).status
        errLog := (upushEffect s).errLog } := by
  obtain ⟨-, h⟩ | ⟨-, h⟩ := upushEffect_cases s
  · rw [h]; rfl
  · rw [h]

/-- UPULL.V writes UQ, CW, STATUS and the record, and nothing else (41_stream.md R186). -/
theorem upullEffect_eq (v : Variant) (s : State) :
    upullEffect v s =
      { s with
        uq := (upullEffect v s).uq, cw := (upullEffect v s).cw
        status := (upullEffect v s).status, errLog := (upullEffect v s).errLog } := by
  obtain ⟨-, h⟩ | ⟨-, h⟩ := upullEffect_cases v s
  · rw [h]; rfl
  · rw [h]

theorem runCommand_data (h : ¬∃ v, i = .decode v) : (runCommand H i s).data = s.data := by
  cases i with
  | decode v => exact absurd ⟨v, rfl⟩ h
  | flush => exact packFlush_data s
  | upush => rw [runCommand, upushEffect_eq]
  | upull v => rw [runCommand, upullEffect_eq]
  | _ => rfl

theorem runCommand_cw (h : ¬(i = .correct ∨ ∃ v, i = .enc v ∨ i = .decode v ∨ i = .upull v)) :
    (runCommand H i s).cw = s.cw := by
  cases i with
  | correct => exact absurd (.inl rfl) h
  | enc v => exact absurd (.inr ⟨v, .inl rfl⟩) h
  | decode v => exact absurd (.inr ⟨v, .inr (.inl rfl)⟩) h
  | upull v => exact absurd (.inr ⟨v, .inr (.inr rfl)⟩) h
  | flush => exact packFlush_cw s
  | upush => rw [runCommand, upushEffect_eq]
  | _ => rfl

theorem runCommand_syn (h : ¬∃ v, i = .synd v ∨ i = .decode v) :
    (runCommand H i s).syn = s.syn := by
  cases i with
  | synd v => exact absurd ⟨v, .inl rfl⟩ h
  | decode v => exact absurd ⟨v, .inr rfl⟩ h
  | flush => exact packFlush_syn s
  | upush => rw [runCommand, upushEffect_eq]
  | upull v => rw [runCommand, upullEffect_eq]
  | _ => rfl

theorem runCommand_loc (h : ¬∃ v, i = .locate v ∨ i = .decode v) :
    (runCommand H i s).loc = s.loc := by
  cases i with
  | locate v => exact absurd ⟨v, .inl rfl⟩ h
  | decode v => exact absurd ⟨v, .inr rfl⟩ h
  | flush => exact packFlush_loc s
  | upush => rw [runCommand, upushEffect_eq]
  | upull v => rw [runCommand, upullEffect_eq]
  | _ => rfl

/-- Only the pack commands and SCLR write the packer: its residue and its completed bytes. -/
theorem runCommand_packer (h : ¬(i = .packdata ∨ i = .flush ∨ i = .sclr ∨ ∃ v, i = .packcw v)) :
    (runCommand H i s).pkout = s.pkout ∧ (runCommand H i s).pq = s.pq := by
  cases i with
  | packdata => exact absurd (.inl rfl) h
  | flush => exact absurd (.inr (.inl rfl)) h
  | sclr => exact absurd (.inr (.inr (.inl rfl))) h
  | packcw v => exact absurd (.inr (.inr (.inr ⟨v, rfl⟩))) h
  | upush =>
    rw [runCommand, upushEffect_eq]; exact ⟨rfl, rfl⟩
  | upull v =>
    rw [runCommand, upullEffect_eq]; exact ⟨rfl, rfl⟩
  | _ => exact ⟨rfl, rfl⟩

theorem runCommand_uq (h : ¬(i = .upush ∨ i = .sclr ∨ ∃ v, i = .upull v)) :
    (runCommand H i s).uq = s.uq := by
  cases i with
  | upush => exact absurd (.inl rfl) h
  | sclr => exact absurd (.inr (.inl rfl)) h
  | upull v => exact absurd (.inr (.inr ⟨v, rfl⟩)) h
  | flush => exact packFlush_uq s
  | _ => rfl

/-- No command touches the host agent (10_state.md R33). -/
theorem runCommand_host (H : Matrices) (i : Instr) (s : State) :
    (runCommand H i s).pending = s.pending ∧ (runCommand H i s).reads = s.reads := by
  cases i with
  | flush => exact ⟨packFlush_pending s, packFlush_reads s⟩
  | upush =>
    rw [runCommand, upushEffect_eq]; exact ⟨rfl, rfl⟩
  | upull v =>
    rw [runCommand, upullEffect_eq]; exact ⟨rfl, rfl⟩
  | _ => exact ⟨rfl, rfl⟩

/-- A command that is not in error keeps ERR and its code (10_state.md R42). -/
theorem runCommand_error_of_not_raisesOwnError (h : ¬raisesOwnError i s) :
    (runCommand H i s).status.err = s.status.err ∧
      (runCommand H i s).status.errcode = s.status.errcode := by
  rw [runCommand_status_of_not_raisesOwnError H h]
  exact ⟨statusAfter_err _ _ _, statusAfter_errcode _ _ _⟩

end

/-- Settles O50: the frame lemmas, each read the other way round. -/
theorem onlyTheNamedCommandsChangeARegister : Obligations.OnlyTheNamedCommandsChangeARegister := by
  intro i s t h
  rw [exec_eq_runCommand] at h
  injection h with h
  subst h
  refine ⟨Not.imp_symm (runCommand_data _), Not.imp_symm (runCommand_cw _),
    Not.imp_symm (runCommand_syn _), Not.imp_symm (runCommand_loc _),
    Not.imp_symm fun h => (runCommand_packer _ h).1, Not.imp_symm fun h => (runCommand_packer _ h).2,
    Not.imp_symm (runCommand_uq _), Not.imp_symm (runCommand_errLog_of_not_raisesOwnError _),
    fun h => ?_, runCommand_host _ i s⟩
  by_contra hown
  obtain ⟨herr, hcode⟩ := runCommand_error_of_not_raisesOwnError Config.matrices hown
  exact h.elim (· herr) (· hcode)

/-! ### The life of an error (60_exceptions.md R222, R224) -/

theorem raiseError_err_sticky {s : State} (e : CmdError) (h : s.status.err = true) :
    (raiseError e s).status.err = true ∧ (raiseError e s).status.errcode = s.status.errcode := by
  simp [h]

/-- A command keeps a set ERR and the first code, whether or not it is in error itself. -/
theorem runCommand_err_sticky (H : Matrices) (i : Instr) {s : State} (h : s.status.err = true) :
    (runCommand H i s).status.err = true ∧
      (runCommand H i s).status.errcode = s.status.errcode := by
  by_cases hown : raisesOwnError i s
  · obtain ⟨e, hraise⟩ := runCommand_of_raisesOwnError H hown
    rw [hraise]
    exact raiseError_err_sticky e h
  · rw [← h]
    exact runCommand_error_of_not_raisesOwnError H hown

/-- Settles O54: of the events that write STATUS the premise leaves commands, command errors and the
write without bit 8. -/
theorem errorFlagIsSticky : Obligations.ErrorFlagIsSticky := by
  intro s t hstep herr hevent
  obtain ⟨-, rfl⟩ | ⟨e, u, hp, hu, hcase⟩ := step_cases hstep
  · exact ⟨herr, rfl⟩
  have hst : u.status = s.status := by rw [hu]
  obtain ⟨hreset, hclear⟩ := hevent e _ hp
  rw [← hst] at herr ⊢
  obtain ⟨w, i, -, -, rfl⟩ | ⟨w, x, -, -, rfl⟩ | ⟨w, he, rfl⟩ | ⟨w, -, rfl⟩ | ⟨w, -, rfl⟩ |
    ⟨off, w, -, rfl⟩ | ⟨off, -, rfl⟩ | ⟨he, -⟩ := hcase
  · exact runCommand_err_sticky _ i herr
  · exact raiseError_err_sticky x herr
  · rw [Status.hostWrite_of_clear _ (hclear w he)]
    exact ⟨herr, rfl⟩
  · exact ⟨herr, rfl⟩
  · exact ⟨herr, rfl⟩
  · exact ⟨herr, rfl⟩
  · exact ⟨herr, rfl⟩
  · exact absurd he hreset

theorem runCommand_errLog (H : Matrices) (i : Instr) (s : State) :
    (runCommand H i s).errLog = s.errLog ∨ ∃ e, (runCommand H i s).errLog = s.errLog ++ [e] := by
  by_cases hown : raisesOwnError i s
  · obtain ⟨e, hraise⟩ := runCommand_of_raisesOwnError H hown
    exact .inr ⟨e, by rw [hraise, raiseError_errLog]⟩
  · exact .inl (runCommand_errLog_of_not_raisesOwnError H hown)

/-- Settles O55: only a command or a command error reaches the record. -/
theorem errorRecordOnlyGrows : Obligations.ErrorRecordOnlyGrows := by
  intro s t hstep
  obtain ⟨-, rfl⟩ | ⟨e, u, -, hu, hcase⟩ := step_cases hstep
  · exact .inl rfl
  have hlog : u.errLog = s.errLog := by rw [hu]
  rw [← hlog]
  obtain ⟨w, i, -, -, rfl⟩ | ⟨w, x, -, -, rfl⟩ | ⟨w, -, rfl⟩ | ⟨w, -, rfl⟩ | ⟨w, -, rfl⟩ |
    ⟨off, w, -, rfl⟩ | ⟨off, -, rfl⟩ | ⟨-, rfl⟩ := hcase
  · exact runCommand_errLog _ i u
  · exact .inr ⟨x, raiseError_errLog u x⟩
  all_goals exact .inl rfl

/-! ### The invariant: what reset and the host's own accesses do to it -/

/-- The invariant speaks neither of DATA and CW nor of the host agent. -/
theorem Invariant.of_host_fields {s : State} (h : Invariant s) (d : Byte) (w : BitVec 16)
    (p : List HostEvent) (r : List Word) :
    Invariant { s with data := d, cw := w, pending := p, reads := r } := by
  obtain ⟨hloc, hstatus, hpkout, ⟨hpq, hmod, hle⟩, hrec⟩ := h
  exact ⟨hloc, hstatus, hpkout, ⟨hpq, hmod, hle⟩, hrec⟩

theorem Status.legal_reset : Status.reset.Legal := ⟨by decide, by decide, by decide⟩

theorem PkOut.legal_zero : PkOut.zero.Legal := ⟨by decide, fun _ => rfl, fun _ => rfl⟩

/-- RESET restores the invariant from any state (70_reset_and_hazards.md R250). -/
theorem invariant_resetCore (s : State) : Invariant (resetCore s) where
  loc := trivial
  status := Status.legal_reset
  pkout := PkOut.legal_zero
  queues := ⟨.inl rfl, rfl, Nat.zero_le 24⟩
  recorded := fun h => nomatch h

/-- Settles O47: the state after reset is RESET's own result. -/
theorem invariantHoldsAtReset : Obligations.InvariantHoldsAtReset := invariant_resetCore State.reset

/-- The host's STATUS write clears ERR and ERRCODE together, or neither (20_memory.md R76). -/
theorem Invariant.hostWrite {s : State} (h : Invariant s) (w : Word) :
    Invariant { s with status := s.status.hostWrite w } := by
  obtain ⟨hloc, ⟨herr, hcode, hop⟩, hpkout, ⟨hpq, hmod, hle⟩, hrec⟩ := h
  cases hw : w.getLsbD 8 with
  | true =>
    rw [Status.hostWrite_of_set _ hw]
    exact ⟨hloc, ⟨by simp, Nat.zero_le 4, hop⟩, hpkout, ⟨hpq, hmod, hle⟩, fun h => nomatch h⟩
  | false =>
    rw [Status.hostWrite_of_clear _ hw]
    exact ⟨hloc, ⟨herr, hcode, hop⟩, hpkout, ⟨hpq, hmod, hle⟩, hrec⟩

/-! ### The invariant: what a command does to it -/

/-- Every cause has a nonzero code of at most 4 (60_exceptions.md R221). -/
theorem errorCode_bounds (e : CmdError) : errorCode e ≠ 0 ∧ (errorCode e).toNat ≤ 4 := by
  cases e <;> decide

theorem Invariant.raiseError {s : State} (h : Invariant s) (e : CmdError) :
    Invariant (raiseError e s) := by
  obtain ⟨hloc, ⟨herr, hcode, hop⟩, hpkout, ⟨hpq, hmod, hle⟩, -⟩ := h
  refine ⟨hloc, ?_, hpkout, ⟨hpq, hmod, hle⟩, fun _ => by simp⟩
  rw [raiseError_status]
  cases hs : s.status.err with
  | true => exact ⟨iff_of_true rfl (herr.mp hs), hcode, hop⟩
  | false => exact ⟨iff_of_true rfl (errorCode_bounds e).1, (errorCode_bounds e).2, hop⟩

theorem statusAfter_lastop (i : Instr) (s t : State) : (statusAfter i s t).lastop = opOf i := by
  cases i <;> rfl

/-- A command that is not in error keeps STATUS legal: LASTOP is its own OP (10_state.md R42). -/
theorem legal_runCommand_status (H : Matrices) {i : Instr} {s : State} (h : s.status.Legal)
    (hown : ¬raisesOwnError i s) : (runCommand H i s).status.Legal := by
  obtain ⟨herr, hcode, -⟩ := h
  have hop := opOf_lt i
  rw [runCommand_status_of_not_raisesOwnError H hown]
  constructor
  · rwa [statusAfter_err, statusAfter_errcode]
  · rwa [statusAfter_errcode]
  · rw [statusAfter_lastop]
    omega

/-- What LOCATE.V and DECODE.V put into LOC is a locator result of V (10_state.md R40). -/
theorem reachable_runCommand_loc (H : Matrices) (i : Instr) {s : State} (h : s.loc.Reachable) :
    (runCommand H i s).loc.Reachable := by
  by_cases hi : ∃ v, i = .locate v ∨ i = .decode v
  · obtain ⟨v, rfl | rfl⟩ := hi <;> exact reachable_locate H v _
  · rwa [runCommand_loc H hi]

/-- A byte that was not completed reads 0 (10_state.md R45). -/
theorem legal_of_packsTo {stream : List Bool} {p : PkOut} {q : List Bool} (h : PacksTo stream p q) :
    p.Legal := by
  obtain ⟨-, ⟨-, rfl⟩ | ⟨x, -, rfl⟩ | ⟨x, y, -, rfl⟩⟩ := h
  · exact PkOut.legal_zero
  · exact ⟨by simp, fun _ => rfl, by simp⟩
  · exact ⟨by simp, fun h => absurd rfl h, by simp⟩

/-- A pack of a byte or a code word onto a residue of at most 7 bits cuts the stream (41_stream.md
R181). -/
theorem packsTo_packAppend_of_residue {new : List Bool} {s : State} (hres : s.pq.length ≤ 7)
    (hmin : 8 ≤ new.length) (hmax : new.length ≤ 16) :
    PacksTo (s.pq ++ new) (packAppend new s).pkout (packAppend new s).pq :=
  packsTo_packAppend (by rw [List.length_append]; omega) (by rw [List.length_append]; omega)

theorem packsTo_packdata (H : Matrices) {s : State} (hres : s.pq.length ≤ 7) :
    PacksTo (s.pq ++ bits s.data) (runCommand H .packdata s).pkout (runCommand H .packdata s).pq :=
  packsTo_packAppend_of_residue hres (length_bits _).ge (by simp)

theorem packsTo_packcw (H : Matrices) (v : Variant) {s : State} (hres : s.pq.length ≤ 7) :
    PacksTo (s.pq ++ bits (codeWord v s)) (runCommand H (.packcw v) s).pkout
      (runCommand H (.packcw v) s).pq := by
  have hlen := length_bits (codeWord v s)
  have hwidth := width_le v
  exact packsTo_packAppend_of_residue hres (by rw [hlen]; exact Nat.le_add_right 8 _) (by rwa [hlen])

theorem legal_runCommand_pkout (H : Matrices) (i : Instr) {s : State} (hres : s.pq.length ≤ 7)
    (h : s.pkout.Legal) : (runCommand H i s).pkout.Legal := by
  by_cases hi : i = .packdata ∨ i = .flush ∨ i = .sclr ∨ ∃ v, i = .packcw v
  · obtain rfl | rfl | rfl | ⟨v, rfl⟩ := hi
    · exact legal_of_packsTo (packsTo_packdata H hres)
    · exact legal_of_packsTo (packsTo_packFlush hres)
    · exact PkOut.legal_zero
    · exact legal_of_packsTo (packsTo_packcw H v hres)
  · rwa [(runCommand_packer H hi).1]

/-- Both widths are a multiple of 4 (00_scope.md R7). -/
theorem width_eq_or (v : Variant) : v.width = 12 ∨ v.width = 16 := by
  cases v
  · exact .inl rfl
  · exact .inr rfl

/-- A residue of 0 or 4 bits stays one: every append is a multiple of 4 bits (41_stream.md R188(e)). -/
theorem length_runCommand_pq (H : Matrices) (i : Instr) {s : State}
    (h : s.pq.length = 0 ∨ s.pq.length = 4) :
    (runCommand H i s).pq.length = 0 ∨ (runCommand H i s).pq.length = 4 := by
  by_cases hi : i = .packdata ∨ i = .flush ∨ i = .sclr ∨ ∃ v, i = .packcw v
  · obtain rfl | rfl | rfl | ⟨v, rfl⟩ := hi
    · have hlen : (runCommand H .packdata s).pq.length = (s.pq.length + (bits s.data).length) % 8 :=
        length_packAppend_pq _ s
      rw [length_bits] at hlen
      omega
    · exact .inl (congrArg List.length (packFlush_pq s))
    · exact .inl rfl
    · have hlen : (runCommand H (.packcw v) s).pq.length =
          (s.pq.length + (bits (codeWord v s)).length) % 8 := length_packAppend_pq _ s
      rw [length_bits] at hlen
      have hwidth := width_eq_or v
      omega
  · rwa [(runCommand_packer H hi).2]

/-- UQ stays a multiple of 4 up to 24: UPUSH adds 8 bits to at most 16, UPULL.V takes 12 or 16, or all
(41_stream.md R188(e)). -/
theorem length_runCommand_uq (H : Matrices) (i : Instr) {s : State}
    (h : s.uq.length % 4 = 0 ∧ s.uq.length ≤ 24) :
    (runCommand H i s).uq.length % 4 = 0 ∧ (runCommand H i s).uq.length ≤ 24 := by
  by_cases hi : i = .upush ∨ i = .sclr ∨ ∃ v, i = .upull v
  · obtain rfl | rfl | ⟨v, rfl⟩ := hi
    · obtain ⟨-, hraise⟩ | ⟨hfits, hpush⟩ := upushEffect_cases s
      · rwa [runCommand, hraise]
      · rw [runCommand, hpush, List.length_append, length_bits]
        omega
    · exact ⟨rfl, Nat.zero_le 24⟩
    · obtain ⟨-, hraise⟩ | ⟨-, hpull⟩ := upullEffect_cases v s
      · rwa [runCommand, hraise]
      · have hwidth := width_eq_or v
        rw [runCommand, hpull, length_queueAfterPull]
        omega
  · rwa [runCommand_uq H hi]

theorem Invariant.runCommand {s : State} (h : Invariant s) (H : Matrices) (i : Instr) :
    Invariant (runCommand H i s) := by
  by_cases hown : raisesOwnError i s
  · obtain ⟨e, hraise⟩ := runCommand_of_raisesOwnError H hown
    rw [hraise]
    exact h.raiseError e
  · obtain ⟨hloc, hstatus, hpkout, ⟨hpq, hmod, hle⟩, hrec⟩ := h
    obtain ⟨hmod', hle'⟩ := length_runCommand_uq H i ⟨hmod, hle⟩
    refine ⟨reachable_runCommand_loc H i hloc, legal_runCommand_status H hstatus hown,
      legal_runCommand_pkout H i (by omega) hpkout, ⟨length_runCommand_pq H i hpq, hmod', hle'⟩, ?_⟩
    rwa [(runCommand_error_of_not_raisesOwnError H hown).1,
      runCommand_errLog_of_not_raisesOwnError H hown]

/-- Settles O48: one case for each thing a step can do. -/
theorem everyStepKeepsTheInvariant : Obligations.EveryStepKeepsTheInvariant := by
  intro s t hs hstep
  obtain ⟨-, rfl⟩ | ⟨e, u, -, hu, hcase⟩ := step_cases hstep
  · exact hs
  have h : Invariant u := hu ▸ hs.of_host_fields s.data s.cw u.pending s.reads
  obtain ⟨w, i, -, -, rfl⟩ | ⟨w, x, -, -, rfl⟩ | ⟨w, -, rfl⟩ | ⟨w, -, rfl⟩ | ⟨w, -, rfl⟩ |
    ⟨off, w, -, rfl⟩ | ⟨off, -, rfl⟩ | ⟨-, rfl⟩ := hcase
  · exact h.runCommand _ i
  · exact h.raiseError x
  · exact h.hostWrite w
  · exact h.of_host_fields _ u.cw u.pending u.reads
  · exact h.of_host_fields u.data _ u.pending u.reads
  · exact h
  · exact h.of_host_fields u.data u.cw u.pending _
  · exact invariant_resetCore u

end Sys2Proof.Machine
end

section
/-! PROOF. The statements of 20_memory.md on steps and the bus: which events complete, what an accepted
access does, the value each register shows, and the runs of several events. -/

namespace Sys2Proof.Machine

open Sys2Proof.Claims

/-! ### Which events complete (20_memory.md R71, R82) -/

theorem accepted_eq_false_iff (bytes off : Nat) :
    accepted bytes off = false ↔ Unsupported bytes off := by
  simp only [accepted, Unsupported, Bool.and_eq_false_iff, beq_eq_false_iff_ne,
    decide_eq_false_iff_not, Nat.not_lt, ne_eq, or_assoc]

theorem accepted_word {off : Nat} (halign : off % 4 = 0) (hin : off < 0x100) :
    accepted 4 off = true := by
  simp [accepted, halign, hin]

/-- An accepted write completes, whatever its offset and value, and leaves the host's list alone
(20_memory.md R73, 60_exceptions.md R226). -/
theorem busWrite_completes (off : Nat) (w : Word) (s : State) :
    ∃ t, busWrite off w s = .next t ∧ t.pending = s.pending := by
  obtain ⟨-, h⟩ | ⟨-, h⟩ | ⟨-, h⟩ | ⟨-, h⟩ | ⟨-, -, -, -, h⟩ := busWrite_cases off w s
  · obtain ⟨i, -, hx⟩ | ⟨e, -, hx⟩ := execWord_cases w s
    · exact ⟨_, h.trans hx, (runCommand_host _ i s).1⟩
    · exact ⟨_, h.trans hx, rfl⟩
  all_goals exact ⟨_, h, rfl⟩

theorem hostEvent_of_accepted {e : HostEvent} (h : e.accepted = true) (s : State) :
    ∃ t, hostEvent e s = .next t ∧ t.pending = s.pending := by
  cases e with
  | write bytes off w =>
    have ha : accepted bytes off = true := h
    rw [hostEvent, if_pos ha]
    exact busWrite_completes off w s
  | read bytes off =>
    have ha : accepted bytes off = true := h
    rw [hostEvent, if_pos ha]
    exact ⟨_, rfl, rfl⟩
  | reset => exact ⟨_, rfl, rfl⟩

theorem hostEvent_of_refused {e : HostEvent} (h : e.accepted = false) (s : State) :
    hostEvent e s = .fault .unsupportedAccess := by
  cases e with
  | write bytes off w =>
    have ha : accepted bytes off = false := h
    simp [hostEvent, ha]
  | read bytes off =>
    have ha : accepted bytes off = false := h
    simp [hostEvent, ha]
  | reset => cases h

/-- The refused events are the unsupported accesses; RESET is never refused (20_memory.md R71). -/
theorem refused_iff (e : HostEvent) :
    e.accepted = false ↔ ∃ bytes off, Unsupported bytes off ∧
      (e = .read bytes off ∨ ∃ w, e = .write bytes off w) := by
  constructor
  · intro h
    cases e with
    | write bytes off w => exact ⟨bytes, off, (accepted_eq_false_iff _ _).mp h, .inr ⟨w, rfl⟩⟩
    | read bytes off => exact ⟨bytes, off, (accepted_eq_false_iff _ _).mp h, .inl rfl⟩
    | reset => cases h
  · rintro ⟨bytes, off, h, rfl | ⟨w, rfl⟩⟩ <;> exact (accepted_eq_false_iff _ _).mpr h

/-- Settles O10: an idle step and an accepted event complete, a refused one is the fault. -/
theorem stepStopsExactlyOnUnsupportedAccess : Obligations.StepStopsExactlyOnUnsupportedAccess := by
  intro s
  cases hp : s.pending with
  | nil => simp [step_of_idle hp]
  | cons e rest =>
    have hright : (∃ rest' bytes off, Unsupported bytes off ∧
        (e :: rest = .read bytes off :: rest' ∨ ∃ w, e :: rest = .write bytes off w :: rest')) ↔
        e.accepted = false := by simp [refused_iff, ← or_and_right]
    rw [step_of_pending hp, hright]
    cases he : e.accepted with
    | true =>
      obtain ⟨t, ht, -⟩ := hostEvent_of_accepted he { s with pending := rest }
      simp [ht]
    | false =>
      rw [hostEvent_of_refused he]
      exact ⟨fun _ => nofun, iff_of_true ⟨_, rfl⟩ rfl, fun _ h => (Host.Outcome.fault.inj h).symm⟩

/-! ### Runs -/

theorem run_succ_of_next {s t : State} (h : step s = .next t) (k : Nat) :
    Host.Core.run Sys2Proof.core (k + 1) s = Host.Core.run Sys2Proof.core k t := by
  simp only [Host.Core.run, Sys2Proof.core, h]

theorem run_one (s : State) : Host.Core.run Sys2Proof.core 1 s = step s := by
  simp only [Host.Core.run, Sys2Proof.core]
  cases step s <;> rfl

/-- A run over accepted events performs them all, by induction on the host's list. -/
theorem run_of_accepted (es : List HostEvent) (hes : ∀ e ∈ es, e.accepted = true) {s : State}
    (hp : s.pending = es) :
    ∃ t, Host.Core.run Sys2Proof.core es.length s = .next t ∧ t.pending = [] := by
  induction es generalizing s with
  | nil => exact ⟨s, rfl, hp⟩
  | cons e rest ih =>
    obtain ⟨he, hrest⟩ := List.forall_mem_cons.mp hes
    obtain ⟨t, ht, hpending⟩ := hostEvent_of_accepted he { s with pending := rest }
    rw [List.length_cons, run_succ_of_next ((step_of_pending hp).trans ht)]
    exact ih hrest hpending

/-- Settles O11: `HostBehaves` says that every pending event is accepted. -/
theorem supportedAccessesAllComplete : Obligations.SupportedAccessesAllComplete := fun s h =>
  run_of_accepted s.pending h rfl

/-! ### What one event does -/

/-- Settles O9: the model's idle step. -/
theorem stepWithNoPendingAccessHoldsTheState : Obligations.StepWithNoPendingAccessHoldsTheState :=
  fun _ h => step_of_idle h

theorem step_of_write {s : State} {rest : List HostEvent} {off : Nat} {w : Word}
    (hp : s.pending = .write 4 off w :: rest) (halign : off % 4 = 0) (hin : off < 0x100) :
    step s = busWrite off w { s with pending := rest } := by
  rw [step_of_pending hp, hostEvent, if_pos (accepted_word halign hin)]

/-- The value a read returns does not depend on the host's list (20_memory.md R72). -/
theorem busRead_of_other_pending (off : Nat) (s : State) (p : List HostEvent) :
    busRead off { s with pending := p } = busRead off s := by
  unfold busRead
  split <;> rfl

/-- Settles O12: an accepted read only passes the register's value to the host. -/
theorem readHasNoSideEffect : Obligations.ReadHasNoSideEffect := by
  intro s rest off hp halign hin
  rw [step_of_pending hp, hostEvent, if_pos (accepted_word halign hin), busRead_of_other_pending]

/-- Settles O17: RESET is taken without a further check. -/
theorem resetEventRestoresTheCore : Obligations.ResetEventRestoresTheCore := fun _ _ hp =>
  step_of_pending hp

/-- Settles O5: a write to CMD is `Exec(w)`, which runs the command the word decodes to. -/
theorem stepRunsTheDecodedCommand : Obligations.StepRunsTheDecodedCommand := by
  intro s rest w i hp hd
  rw [step_of_write hp rfl (by decide)]
  exact execWord_of_command hd _

/-- Settles O14: the accepted write at each of the three offsets that take one, and at all others. -/
theorem hostWriteEffectsByOffset : Obligations.HostWriteEffectsByOffset := by
  intro s rest off w hp halign hin hoff
  rw [step_of_write hp halign hin]
  obtain ⟨rfl, -⟩ | ⟨rfl, h⟩ | ⟨rfl, h⟩ | ⟨rfl, h⟩ | ⟨-, hstatus, hdata, hcw, h⟩ :=
    busWrite_cases off w { s with pending := rest }
  · exact absurd rfl hoff
  · rw [h]
    cases hw : w.getLsbD 8 with
    | true => simp [Status.hostWrite_of_set _ hw]
    | false => simp [Status.hostWrite_of_clear _ hw]
  · rw [h]
    simp [BitVec.ofNat_toNat]
  · rw [h]
    simp [BitVec.ofNat_toNat]
  · rw [h]
    simp [hstatus, hdata, hcw]

theorem Status.hostWrite_hostWrite (st : Status) (w : Word) :
    (st.hostWrite w).hostWrite w = st.hostWrite w := by
  cases hw : w.getLsbD 8 with
  | true => simp [Status.hostWrite_of_set _ hw]
  | false => simp [Status.hostWrite_of_clear _ hw]

/-- Settles O15: at each offset the write overwrites what it wrote before. -/
theorem repeatedRegisterWriteIsIdempotent : Obligations.RepeatedRegisterWriteIsIdempotent := by
  intro off w s t hoff h
  obtain ⟨rfl, -⟩ | ⟨rfl, hw⟩ | ⟨rfl, hw⟩ | ⟨rfl, hw⟩ | ⟨-, -, -, -, hw⟩ := busWrite_cases off w s
  · exact absurd rfl hoff
  · cases hw.symm.trans h
    simp only [busWrite, Status.hostWrite_hostWrite]
  · cases hw.symm.trans h
    rfl
  · cases hw.symm.trans h
    rfl
  · cases hw.symm.trans h
    exact h

/-! ### The pseudo-instructions (30_encoding.md R112) -/

theorem step_of_commandEvent {s : State} {rest : List HostEvent} {i : Instr}
    (hp : s.pending = commandEvent i :: rest) : step s = exec i { s with pending := rest } :=
  stepRunsTheDecodedCommand s rest (encode i) i hp
    (decodeOfEncodeIsTheCommand i (by cases i <;> rfl))

/-- A write that completes, then a command. -/
theorem run_write_then_command {s t : State} {rest : List HostEvent} {off : Nat} {w : Word}
    {i : Instr} (hp : s.pending = .write 4 off w :: rest) (halign : off % 4 = 0) (hin : off < 0x100)
    (hw : busWrite off w { s with pending := rest } = .next t) {rest' : List HostEvent}
    (ht : t.pending = commandEvent i :: rest') :
    Host.Core.run Sys2Proof.core 2 s = exec i { t with pending := rest' } := by
  rw [run_succ_of_next ((step_of_write hp halign hin).trans hw), run_one, step_of_commandEvent ht]

/-- Settles O8: CLRERR is one write; each of the others is a write, then its command. -/
theorem pseudoInstructionsRunAsTheirExpansion :
    Obligations.PseudoInstructionsRunAsTheirExpansion := by
  intro v x s run
  have hdata (i : Instr) : run 2 [.write 4 0x08 x, commandEvent i] =
      exec i { s with data := BitVec.ofNat 8 x.toNat } := by
    rw [BitVec.ofNat_toNat]
    exact run_write_then_command (off := 0x08) rfl rfl (by decide) rfl rfl
  have hcw (i : Instr) : run 2 [.write 4 0x0C x, commandEvent i] =
      exec i { s with cw := BitVec.ofNat 16 x.toNat } := by
    rw [BitVec.ofNat_toNat]
    exact run_write_then_command (off := 0x0C) rfl rfl (by decide) rfl rfl
  refine ⟨?_, hdata _, hcw _, hdata _, hdata _⟩
  have hset : (0x100 : Word).getLsbD 8 = true := by decide
  have hclr : step { s with pending := clrErr ++ s.pending } =
      .next { s with status := s.status.hostWrite 0x100 } :=
    step_of_write (off := 0x04) rfl rfl (by decide)
  rw [← Status.hostWrite_of_set s.status hset]
  exact (run_one _).trans hclr

/-! ### The values the registers show (10_state.md R34 to R48) -/

/-- A concatenation as a number: the upper part shifted above the lower one. -/
theorem toNat_append_eq_add {m n : Nat} (x : BitVec m) (y : BitVec n) :
    (x ++ y).toNat = x.toNat * 2 ^ n + y.toNat := by
  rw [BitVec.toNat_append, ← Nat.shiftLeft_add_eq_or_of_lt y.isLt, Nat.shiftLeft_eq]

theorem toNat_statusWord (st : Status) :
    (statusWord st).toNat =
      st.lastop.toNat * 4096 + st.errcode.toNat * 512 + st.err.toNat * 256 +
        st.vlast.bit.toNat * 16 + st.pad.toNat * 8 + st.uncorr.toNat * 4 + st.corr.toNat * 2 +
        st.synnz.toNat := by
  simp only [statusWord, toNat_append_eq_add, BitVec.toNat_ofBool, BitVec.toNat_ofNat]
  omega

theorem toNat_locWord (l : LocReg) :
    (locWord l).toNat =
      l.result.posB.toNat * 4096 + l.result.posA.toNat * 256 + l.lv.bit.toNat * 4 +
        l.result.kind.toNat := by
  simp only [locWord, toNat_append_eq_add, BitVec.toNat_ofBool, BitVec.toNat_ofNat]
  omega

theorem toNat_pkoutWord (p : PkOut) :
    (pkoutWord p).toNat = p.nout.toNat * 65536 + p.b1.toNat * 256 + p.b0.toNat := by
  simp only [pkoutWord, toNat_append_eq_add, BitVec.toNat_ofNat]
  omega

/-- PKST shows each count in the width of its field (log entry 8). -/
theorem toNat_pkstWord (s : State) :
    (pkstWord s).toNat = s.uq.length % 32 * 256 + s.pq.length % 8 := by
  simp only [pkstWord, toNat_append_eq_add, BitVec.toNat_ofNat]
  omega

/-- A position field of LOC holds every position (10_state.md R39). -/
theorem toNat_position {n : Nat} (hn : n ≤ 16) (a : Fin n) : (BitVec.ofNat 4 a.val).toNat = a.val :=
  Nat.mod_eq_of_lt (a.isLt.trans_le hn)

theorem busRead_of_reserved {off : Nat} (h : 0x24 ≤ off) (s : State) : busRead off s = 0 := by
  unfold busRead
  split
  case h_9 => rfl
  all_goals omega

/-- Settles O13: each register's word as a sum of its fields. -/
theorem registerReadValues : Obligations.RegisterReadValues := by
  intro s
  refine ⟨toNat_statusWord s.status, BitVec.toNat_setWidth_of_le (by decide),
    BitVec.toNat_setWidth_of_le (by decide), BitVec.toNat_setWidth_of_le (by decide), ?_,
    toNat_pkoutWord s.pkout, fun hpq huq => ?_, rfl, rfl, fun off h => busRead_of_reserved h s⟩
  · refine (toNat_locWord s.loc).trans ?_
    cases s.loc.result with
    | none => simp [Locator.posA, Locator.posB, Locator.kind]
    | single a =>
      simp only [Locator.posA, Locator.posB, Locator.kind, toNat_position (show 12 ≤ 16 by decide)]
      simp
      omega
    | pair a b =>
      simp only [Locator.posA, Locator.posB, Locator.kind, toNat_position le_rfl]
      simp
      omega
  · refine (toNat_pkstWord s).trans ?_
    rw [Nat.mod_eq_of_lt (by omega), Nat.mod_eq_of_lt (by omega)]

end Sys2Proof.Machine
end

section
/-! PROOF. The statements of 40_codec.md on correction and on what decoding guarantees: the code word
inside CW, the commands that DECODE.V is made of, and, under the predicates of R132, the errors that are
located and so corrected. -/

namespace Sys2Proof.Machine

open Sys2Proof.Claims

/-! ### The code word inside CW (10_state.md R36) -/

/-- CW is fixed by its code word bits and the bits above them. -/
theorem insertCodeWord_eq_iff (v : Variant) (cw w : BitVec 16) (c : BitVec v.width) :
    insertCodeWord v cw c = w ↔
      c = w.setWidth v.width ∧ ∀ k, v.width ≤ k → cw.getLsbD k = w.getLsbD k := by
  constructor
  · rintro rfl
    exact ⟨(setWidth_insertCodeWord v cw c).symm,
      fun k hk => (getLsbD_insertCodeWord_of_ge v cw c hk).symm⟩
  · rintro ⟨rfl, habove⟩
    refine BitVec.eq_of_getLsbD_eq fun k _ => ?_
    obtain hk | hk := Nat.lt_or_ge k v.width
    · rw [getLsbD_insertCodeWord_of_lt v _ _ hk, BitVec.getLsbD_setWidth, decide_eq_true hk,
        Bool.true_and]
    · rw [getLsbD_insertCodeWord_of_ge v _ _ hk, habove k hk]

/-- A value kept in a wider register is read back unchanged. -/
theorem setWidth_setWidth_self {n m : Nat} (h : n ≤ m) (x : BitVec n) :
    (x.setWidth m).setWidth n = x := by
  rw [BitVec.setWidth_setWidth_of_le _ h, BitVec.setWidth_eq]

theorem codeWord_eq_iff (v : Variant) (s s' : State) :
    codeWord v s' = codeWord v s ↔ s'.cw.toNat % 2 ^ v.width = s.cw.toNat % 2 ^ v.width := by
  rw [← BitVec.toNat_inj, codeWord, codeWord, BitVec.toNat_setWidth, BitVec.toNat_setWidth]

theorem codeWord_correctEffect (s : State) :
    codeWord s.loc.lv (correctEffect s) =
      flipLocated s.loc.lv (codeWord s.loc.lv s) s.loc.result :=
  setWidth_insertCodeWord _ _ _

theorem codeWord_decodeEffect (H : Matrices) (v : Variant) (s : State) :
    codeWord v (decodeEffect H v s) = (decodeWord H v (codeWord v s)).2.2.1 :=
  setWidth_insertCodeWord _ _ _

/-- The data bits of the code word are a field of CW (40_codec.md R140 step 4). -/
theorem dataBits_setWidth (v : Variant) (cw : BitVec 16) :
    dataBits v (cw.setWidth v.width) = BitVec.ofNat 8 (cw.toNat / 2 ^ v.parity) := by
  apply BitVec.eq_of_toNat_eq
  rw [dataBits, BitVec.toNat_setWidth, BitVec.toNat_ushiftRight, BitVec.toNat_setWidth,
    BitVec.toNat_ofNat, Nat.shiftRight_eq_div_pow, Variant.width, Nat.add_comm 8, Nat.pow_add,
    Nat.mod_mul_right_div_self, Nat.mod_mod]

/-! ### Correction as an error pattern (40_codec.md R139) -/

/-- Correction adds the pattern it makes of the zero word. -/
theorem flipLocated_eq_xor (v : Variant) (c : BitVec v.width) (L : Locator) :
    flipLocated v c L = c ^^^ flipLocated v 0 L := by
  cases L <;> simp [flipLocated, BitVec.xor_assoc]

theorem flipLocated_flipLocated (v : Variant) (c : BitVec v.width) (L : Locator) :
    flipLocated v (flipLocated v c L) L = c := by
  rw [flipLocated_eq_xor, flipLocated_eq_xor v c, BitVec.xor_assoc, BitVec.xor_self, BitVec.xor_zero]

/-- Settles O23: CORRECT keeps LOC, so the second flips the same positions back. -/
theorem correctTwiceRestoresCw : Obligations.CorrectTwiceRestoresCw := by
  intro s
  refine ⟨_, _, exec_eq_runCommand .correct s, exec_eq_runCommand .correct _, ?_⟩
  refine (insertCodeWord_eq_iff s.loc.lv (correctEffect s).cw s.cw _).mpr
    ⟨?_, fun k => getLsbD_insertCodeWord_of_ge _ _ _⟩
  exact (congrArg (flipLocated s.loc.lv · s.loc.result) (codeWord_correctEffect s)).trans
    (flipLocated_flipLocated _ _ _)

/-! ### What DECODE.V is made of, and what it depends on (40_codec.md R155) -/

/-- LOCATE.V after SYND.V works on the syndrome just computed. -/
theorem syndromeOperand_syndEffect (H : Matrices) (v : Variant) (s : State) :
    syndromeOperand v (syndEffect H v s) = syn H v (codeWord v s) :=
  setWidth_setWidth_self (parity_le v) _

/-- Settles O25: the three commands compute syndrome, result and corrected word as DECODE.V does. -/
theorem decodeEqualsSyndLocateCorrectExtract :
    Obligations.DecodeEqualsSyndLocateCorrectExtract := by
  intro v s
  refine ⟨_, _, _, exec_eq_runCommand (.synd v) s, exec_eq_runCommand (.locate v) _,
    exec_eq_runCommand .correct _, rfl, rfl, ?_⟩
  rw [exec_eq_runCommand, ← dataBits_setWidth]
  simp only [runCommand, correctEffect, locateEffect, syndromeOperand_syndEffect,
    setWidth_insertCodeWord]
  rfl

/-- Settles O53: DECODE.V reads CW through its code word alone. -/
theorem decodeDependsOnTheCodeWordAlone : Obligations.DecodeDependsOnTheCodeWordAlone := by
  intro v s s' h
  rw [← codeWord_eq_iff] at h
  refine ⟨_, _, exec_eq_runCommand (.decode v) s, exec_eq_runCommand (.decode v) s', ?_⟩
  rw [← codeWord_eq_iff]
  simp only [runCommand, codeWord_decodeEffect]
  simp only [decodeEffect, h, Status.executedFor_synnz, Status.executedFor_corr,
    Status.executedFor_uncorr, and_self]

@[simp] theorem dataBits_zero (v : Variant) : dataBits v 0 = 0 := by cases v <;> rfl

/-- The zero word has syndrome 0, so nothing is located (40_codec.md R140). -/
theorem decodeWord_zero (H : Matrices) (v : Variant) : decodeWord H v 0 = (0, .none, 0, 0) := by
  simp only [decodeWord, syn_zero, locate_zero, flipLocated, dataBits_zero]

theorem synnzFlag_zero (r : Nat) : synnzFlag (0 : BitVec r) = false := bne_self_eq_false _

theorem uncorrFlag_zero (r : Nat) (L : Locator) : uncorrFlag (0 : BitVec r) L = false := by
  rw [uncorrFlag, bne_self_eq_false, Bool.false_and]

/-- Settles O26: the zero word stays as it is in CW, with the bits above it. -/
theorem zeroWordDecodesToZeroData : Obligations.ZeroWordDecodesToZeroData := by
  intro H v s h
  have hword : codeWord v s = 0 := by
    rw [← BitVec.toNat_inj, codeWord, BitVec.toNat_setWidth, h]
    rfl
  have hcw : insertCodeWord v s.cw 0 = s.cw :=
    (insertCodeWord_eq_iff v s.cw s.cw 0).mpr ⟨hword.symm, fun _ _ => rfl⟩
  simp only [decodeEffect, hword, decodeWord_zero, hcw, zextSyndrome_zero, synnzFlag_zero,
    uncorrFlag_zero]
  rfl

/-! ### Data bits -/

theorem getMsbD_dataBits (v : Variant) (c : BitVec v.width) {p : Nat} (hp : p < 8) :
    (dataBits v c).getMsbD p = c.getMsbD p := by
  have hlt : p < v.width := Nat.lt_add_right _ hp
  rw [getMsbD_byte _ hp, getLsbD_dataBits v c hp, BitVec.getMsbD, decide_eq_true hlt, Bool.true_and]

/-- An error on a code word leaves the data right exactly when it spares the data positions. -/
theorem dataBits_enc_xor_eq_iff (H : Matrices) (v : Variant) (d : Byte) (e : BitVec v.width) :
    dataBits v (enc H v d ^^^ e) = d ↔ ∀ p < 8, e.getMsbD p = false := by
  have hbit {p : Nat} (hp : p < 8) :
      (dataBits v (enc H v d ^^^ e)).getMsbD p = Bool.xor (d.getMsbD p) (e.getMsbD p) := by
    rw [getMsbD_dataBits v _ hp, BitVec.getMsbD_xor, getMsbD_enc_data H v d hp, getMsbD_byte d hp]
  constructor
  · intro h p hp
    have hkept := hbit hp
    rw [h] at hkept
    exact Bool.xor_right_inj.mp (hkept.symm.trans (Bool.xor_false _).symm)
  · intro h
    refine BitVec.eq_of_getMsbD_eq fun p hp => ?_
    rw [hbit hp, h p hp, Bool.xor_false]

theorem dataBits_enc (H : Matrices) (v : Variant) (d : Byte) : dataBits v (enc H v d) = d := by
  simpa using dataBits_enc_xor_eq_iff H v d 0

/-! ### WF_SYS (40_codec.md R132) -/

theorem xorSum_add (m k : Nat) (f : Nat → Bool) :
    xorSum (m + k) f = Bool.xor (xorSum m f) (xorSum k fun j => f (m + j)) := by
  induction k with
  | zero => simp [xorSum]
  | succ k ih => rw [← Nat.add_assoc, xorSum, ih, xorSum, Bool.xor_assoc]

/-- A sum in which a single index counts. -/
theorem xorSum_single {k i : Nat} (hi : i < k) (f : Nat → Bool) :
    (xorSum k fun j => decide (i = j) && f j) = f i := by
  induction k with
  | zero => cases hi
  | succ k ih =>
    rw [xorSum]
    obtain rfl | hne := eq_or_ne i k
    · have hzero : (xorSum i fun j => decide (i = j) && f j) = xorSum i fun _ => false :=
        xorSum_congr fun j hj => by simp [hj.ne']
      have hfalse (n : Nat) : (xorSum n fun _ => false) = false := by
        induction n with
        | zero => rfl
        | succ n ih => rw [xorSum, ih]; rfl
      simp [hzero, hfalse]
    · rw [ih (by omega)]
      simp [hne]

/-- An identity column is a word with a single 1 (40_codec.md R132). -/
theorem eq_positionMask_of_toNat {r k : Nat} (hk : k < r) {x : BitVec r}
    (h : x.toNat = 2 ^ (r - 1 - k)) : x = positionMask r k := by
  have hlt : r - 1 - k < r := by omega
  apply BitVec.eq_of_toNat_eq
  rw [h, positionMask, if_pos hk, BitVec.toNat_twoPow,
    Nat.mod_eq_of_lt (Nat.pow_lt_pow_right (by decide) hlt)]

/-- Settles O28: row i adds the data columns' XOR, which is parity bit i, and that parity bit. -/
theorem identityParityColumnsGiveWfSys : Obligations.IdentityParityColumnsGiveWfSys := by
  intro H v hcols d
  refine BitVec.eq_of_getMsbD_eq fun i hi => ?_
  have hentry (k : Nat) (hk : k < v.parity) : entry (H.of v) i (8 + k) = decide (i = k) := by
    have hcol := getMsbD_col (H.of v) i (8 + k)
    rw [eq_positionMask_of_toNat hk (hcols k hk), getMsbD_positionMask] at hcol
    simpa [hi, hk] using hcol.symm
  have hdata : (xorSum 8 fun j => entry (H.of v) i j && (enc H v d).getMsbD j) =
      (enc H v d).getMsbD (8 + i) := by
    rw [getMsbD_enc_parity H v d hi]
    exact xorSum_congr fun j hj => by rw [getMsbD_enc_data H v d hj]
  have hparity : (xorSum v.parity fun k =>
      entry (H.of v) i (8 + k) && (enc H v d).getMsbD (8 + k)) = (enc H v d).getMsbD (8 + i) := by
    rw [← xorSum_single hi fun k => (enc H v d).getMsbD (8 + k)]
    exact xorSum_congr fun k hk => by rw [hentry k hk]
  rw [getMsbD_syn H v _ hi, xorSum_add, hdata, hparity]
  simp

/-! ### Located errors are corrected (40_codec.md R141) -/

/-- Under WF_SYS the syndrome sees the error alone. -/
theorem syn_enc_xor {H : Matrices} {v : Variant} (hsys : WfSys H v) (d : Byte) (e : BitVec v.width) :
    syn H v (enc H v d ^^^ e) = syn H v e := by
  rw [syn_xor, hsys d]
  exact BitVec.zero_xor

/-- Decoding a code word with an error e that its own syndrome locates gives back the code word and the
data. -/
theorem decodeWord_of_located {H : Matrices} {v : Variant} (hsys : WfSys H v) (d : Byte)
    {e : BitVec v.width} {L : Locator} (hL : locate H v (syn H v e) = L)
    (he : flipLocated v 0 L = e) :
    decodeWord H v (enc H v d ^^^ e) = (syn H v e, L, enc H v d, d) := by
  have hfix : flipLocated v (enc H v d ^^^ e) L = enc H v d := by
    rw [flipLocated_eq_xor, he, BitVec.xor_assoc, BitVec.xor_self, BitVec.xor_zero]
  simp only [decodeWord, syn_enc_xor hsys, hL, hfix, dataBits_enc]

/-- Settles O29: no error at all is located as NONE. -/
theorem cleanCodeWordRoundTrips : Obligations.CleanCodeWordRoundTrips := by
  intro H v hsys d
  have h := decodeWord_of_located hsys d (e := 0) (L := .none) (by rw [syn_zero, locate_zero]) rfl
  have hxor : enc H v d ^^^ 0 = enc H v d := BitVec.xor_zero
  rwa [hxor, syn_zero] at h

/-- The same on the machine: ENC.V, the error put into CW, DECODE.V. -/
theorem decodeEffect_of_located {H : Matrices} {v : Variant} (hsys : WfSys H v) (s : State)
    {e : BitVec v.width} {L : Locator} (hL : locate H v (syn H v e) = L)
    (he : flipLocated v 0 L = e) {t u : State} (ht : t = runCommand H (.enc v) s)
    (hu : u = runCommand H (.decode v) (putCw (t.cw ^^^ zextCodeWord v e) t)) :
    u.data = s.data ∧ u.cw = t.cw ∧ u.loc = { result := L, lv := v } ∧
      u.status.synnz = synnzFlag (syn H v e) ∧ u.status.corr = corrFlag L ∧
      u.status.uncorr = uncorrFlag (syn H v e) L := by
  have htcw : t.cw = zextCodeWord v (enc H v s.data) := by rw [ht]; rfl
  have hword : codeWord v (putCw (t.cw ^^^ zextCodeWord v e) t) = enc H v s.data ^^^ e := by
    rw [htcw]
    refine BitVec.eq_of_getLsbD_eq fun k hk => ?_
    have h16 : k < 16 := hk.trans_le (width_le v)
    simp [codeWord, putCw, zextCodeWord, hk, h16]
  have hcw : insertCodeWord v (t.cw ^^^ zextCodeWord v e) (enc H v s.data) = t.cw := by
    rw [htcw]
    refine (insertCodeWord_eq_iff v _ _ _).mpr
      ⟨(setWidth_setWidth_self (width_le v) _).symm, fun k hk => ?_⟩
    rw [BitVec.getLsbD_xor, getLsbD_zextCodeWord_of_ge v _ hk, getLsbD_zextCodeWord_of_ge v _ hk]
    rfl
  rw [hu, runCommand, decodeEffect, hword, decodeWord_of_located hsys s.data hL he]
  exact ⟨rfl, hcw, rfl, rfl, rfl, rfl⟩

/-- A flipped register bit of CW is a flipped position of the code word (00_scope.md R11). -/
theorem zextCodeWord_positionMask (v : Variant) {p : Nat} (hp : p < v.width) :
    zextCodeWord v (positionMask v.width p) = BitVec.twoPow 16 (v.width - 1 - p) := by
  have hwidth := width_le v
  refine BitVec.eq_of_getLsbD_eq fun k hk => ?_
  have hlt : v.width - 1 - p < 16 := by omega
  rw [zextCodeWord, BitVec.getLsbD_setWidth, getLsbD_positionMask hp, BitVec.getLsbD_twoPow,
    decide_eq_true hk, decide_eq_true hlt, Bool.true_and, Bool.true_and, beq_eq_decide]
  exact decide_eq_decide.mpr eq_comm

/-- Adding a nonzero column changes a syndrome. -/
theorem xor_ne_left {n : Nat} {x y : BitVec n} (hy : y ≠ 0) : x ^^^ y ≠ x := by
  intro h
  have hself : y = x ^^^ (x ^^^ y) := by
    rw [← BitVec.xor_assoc, BitVec.xor_self, BitVec.zero_xor]
  rw [h, BitVec.xor_self] at hself
  exact hy hself

/-! ### SEC: single and double errors -/

theorem col_sec_inj {H : Matrices} (hdist : WfDistSec H) {a b : Fin 12}
    (h : col H.sec a = col H.sec b) : a = b := by
  obtain hlt | heq | hlt := lt_trichotomy a b
  · exact absurd h (hdist a a.isLt b b.isLt hlt)
  · exact heq
  · exact absurd h.symm (hdist b b.isLt a a.isLt hlt)

/-- With distinct nonzero columns a column's position is located (40_codec.md R136). -/
theorem locate_col_sec {H : Matrices} (hnz : WfNz H .sec) (hdist : WfDistSec H) (p : Fin 12) :
    locate H .sec (col H.sec p) = .single p := by
  have hne : col H.sec p ≠ 0 := hnz p p.isLt
  simp only [locate, if_neg hne]
  obtain ⟨-, hnone⟩ | ⟨a, hL, hmatch, -⟩ := locSec_cases H.sec (col H.sec p)
  · exact absurd rfl (hnone p p.isLt)
  · rw [hL, col_sec_inj hdist hmatch]

/-- Settles O30: the error at p has column p as its syndrome, which locates p. -/
theorem secCorrectsEverySingleBitError : Obligations.SecCorrectsEverySingleBitError := by
  intro H hsys hnz hdist s p t u
  have hp : p.val < Variant.sec.width := p.isLt
  have hsyn : syn H .sec (positionMask Variant.sec.width p) = col H.sec p :=
    syn_positionMask H .sec hp
  have hL : locate H .sec (syn H .sec (positionMask Variant.sec.width p)) = .single p := by
    rw [hsyn, locate_col_sec hnz hdist]
  have hu : u = runCommand H (.decode .sec)
      (putCw (t.cw ^^^ zextCodeWord .sec (positionMask Variant.sec.width p)) t) := by
    rw [zextCodeWord_positionMask .sec hp]
    rfl
  have hne : syn H .sec (positionMask Variant.sec.width p) ≠ 0 := hsyn ▸ hnz p hp
  obtain ⟨hdata, hcw, hloc, hsynnz, hcorr, huncorr⟩ :=
    decodeEffect_of_located hsys s hL (BitVec.zero_xor) rfl hu
  exact ⟨hdata, hcw, hloc, hsynnz.trans (bne_iff_ne.mpr hne), hcorr,
    huncorr.trans (Bool.and_false _)⟩

/-- Settles O35: the XOR of two distinct nonzero columns is neither 0 nor one of the two. -/
theorem secDoubleErrorIsMiscorrectedOrPassedThrough :
    Obligations.SecDoubleErrorIsMiscorrectedOrPassedThrough := by
  intro H hsys hnz hdist d p q hpq c r
  have hsyn : r.1 = col H.sec p ^^^ col H.sec q := by
    change syn H .sec c = _
    rw [show c = enc H .sec d ^^^ (positionMask _ p ^^^ positionMask _ q) from BitVec.xor_assoc _ _ _,
      syn_enc_xor hsys, syn_xor, syn_positionMask H .sec p.isLt, syn_positionMask H .sec q.isLt]
    rfl
  have hne : r.1 ≠ 0 := by
    rw [hsyn]
    exact fun h => hpq (col_sec_inj hdist (BitVec.xor_eq_zero_iff.mp h))
  have hloc : r.2.1 = locSec H.sec r.1 := if_neg hne
  have hword : r.2.2.1 = flipLocated .sec c r.2.1 := rfl
  refine ⟨hsyn, hne, ?_⟩
  obtain ⟨hL, hnone⟩ | ⟨k, hL, hmatch, -⟩ := locSec_cases H.sec r.1
  · rw [hword, hloc, hL]
    exact .inr ⟨fun k => hnone k k.isLt, rfl, rfl⟩
  · rw [hword, hloc, hL]
    refine .inl ⟨k, ?_, ?_, hmatch, rfl, rfl⟩
    · rintro rfl
      exact xor_ne_left (hnz q q.isLt) (hmatch.trans hsyn).symm
    · rintro rfl
      rw [BitVec.xor_comm] at hsyn
      exact xor_ne_left (hnz p p.isLt) (hmatch.trans hsyn).symm

/-! ### DEC: pairs -/

/-- The lexicographically first pair with its XOR, if that is not 0, is located (40_codec.md R137). -/
theorem locate_firstPair {H : Matrices} {p q : Fin 16} (hpq : p < q) (hne : pairSum H p q ≠ 0)
    (hfirst : ∀ a ∈ columnPairs, pairSum H a.1 a.2 = pairSum H p q → p < a.1 ∨ p = a.1 ∧ q ≤ a.2) :
    locate H .dec (pairSum H p q) = .pair p q := by
  simp only [locate, if_neg hne]
  obtain ⟨-, hnone⟩ | ⟨a, b, hL, hab, hmatch, hbefore⟩ := locDec_cases H.dec (pairSum H p q)
  · exact absurd rfl (hnone q q.isLt p hpq)
  · have hle := hfirst (a, b) ((mem_columnPairs _).mpr hab) hmatch
    have hge := mt (hbefore q q.isLt p hpq) (not_not.mpr rfl)
    simp only [Fin.lt_def, Fin.le_def, Fin.ext_iff] at hle hge
    have ha : a = p := Fin.ext (by omega)
    have hb : b = q := Fin.ext (by omega)
    rw [hL, ha, hb]

theorem syn_positionMask_pair (H : Matrices) (p q : Fin 16) :
    syn H .dec (positionMask Variant.dec.width p ^^^ positionMask Variant.dec.width q) =
      pairSum H p q := by
  rw [syn_xor, syn_positionMask H .dec p.isLt, syn_positionMask H .dec q.isLt]
  rfl

theorem flipLocated_zero_pair (p q : Fin 16) :
    flipLocated .dec 0 (.pair p q) =
      positionMask Variant.dec.width p ^^^ positionMask Variant.dec.width q := by
  rw [flipLocated]
  exact congrArg (· ^^^ _) BitVec.zero_xor

/-- Settles O31: the two flipped positions are the pair that their syndrome locates. -/
theorem decCorrectsFirstMatchingPair : Obligations.DecCorrectsFirstMatchingPair := by
  intro H hsys s p q hpq hne hfirst t e u
  have hL : locate H .dec (syn H .dec
      (positionMask Variant.dec.width p ^^^ positionMask Variant.dec.width q)) = .pair p q := by
    rw [syn_positionMask_pair, locate_firstPair hpq hne hfirst]
  have hu : u = runCommand H (.decode .dec) (putCw (t.cw ^^^ zextCodeWord .dec
      (positionMask Variant.dec.width p ^^^ positionMask Variant.dec.width q)) t) := by
    rw [zextCodeWord, BitVec.setWidth_xor]
    change _ = runCommand H _ (putCw (t.cw ^^^ (zextCodeWord .dec _ ^^^ zextCodeWord .dec _)) t)
    rw [zextCodeWord_positionMask .dec p.isLt, zextCodeWord_positionMask .dec q.isLt]
    rfl
  obtain ⟨hdata, hcw, hloc, -⟩ :=
    decodeEffect_of_located hsys s hL (flipLocated_zero_pair p q) rfl hu
  exact ⟨hdata, hcw, hloc⟩

/-- Settles O33: under WF_PAIR_DEC a pair is the only one with its XOR, so the first. -/
theorem decCorrectsEveryDoubleErrorUnderWfPair :
    Obligations.DecCorrectsEveryDoubleErrorUnderWfPair := by
  intro H hsys hpair d p q hpq
  obtain ⟨hne, hinj⟩ := hpair
  have hmem : (p, q) ∈ columnPairs := (mem_columnPairs _).mpr hpq
  have hL : locate H .dec (pairSum H p q) = .pair p q := by
    refine locate_firstPair hpq (hne (p, q) hmem) fun a ha hsum => ?_
    rw [hinj a ha (p, q) hmem hsum]
    exact .inr ⟨rfl, le_rfl⟩
  rw [← syn_positionMask_pair] at hL ⊢
  rw [BitVec.xor_assoc]
  exact decodeWord_of_located hsys d hL (flipLocated_zero_pair p q)

/-- Matrices whose data columns are 0 and whose parity columns form the identity: two data columns are
equal, and yet WF_SYS holds. -/
def zeroDataColumns : Matrices where
  sec := .ofFn fun i => .ofFn fun j => decide (j.val = 8 + i.val)
  dec := .ofFn fun i => .ofFn fun j => decide (j.val = 8 + i.val)

theorem wfSys_zeroDataColumns : WfSys zeroDataColumns .dec :=
  identityParityColumnsGiveWfSys zeroDataColumns .dec (by decide)

/-- Refutes O32: with `zeroDataColumns` positions 0 and 1 are the first pair of all, their XOR is 0, so
the double error at them has syndrome 0 and both data bits stay flipped. -/
theorem not_decDoubleErrorGuaranteeWithoutNonzeroPremise :
    ¬Obligations.DecDoubleErrorGuaranteeWithoutNonzeroPremise := by
  intro h
  have hdata := h zeroDataColumns wfSys_zeroDataColumns 0 0 1 (by decide) fun a ha _ => by
    have hlt := (mem_columnPairs a).mp ha
    simp only [Fin.lt_def, Fin.le_def, Fin.ext_iff] at hlt ⊢
    change 0 < a.1.val ∨ 0 = a.1.val ∧ 1 ≤ a.2.val
    omega
  exact absurd hdata (by decide)

/-- A flipped position spares the data exactly when it is a parity position. -/
theorem getMsbD_mask_data {n p : Nat} (hp : p < n) :
    (∀ i < 8, (positionMask n p).getMsbD i = false) ↔ 8 ≤ p := by
  simp only [getMsbD_positionMask, hp, decide_true, Bool.true_and, decide_eq_false_iff_not]
  exact ⟨fun h => Nat.not_lt.mp fun hlt => h p hlt rfl, fun h i hi => by omega⟩

/-- Three flipped positions, all different, spare the data exactly when each is a parity position. -/
theorem getMsbD_three_masks_data {n p a b : Nat} (hp : p < n) (ha : a < n) (hb : b < n)
    (hpa : p ≠ a) (hpb : p ≠ b) (hab : a ≠ b) :
    (∀ i < 8, (positionMask n p ^^^ (positionMask n a ^^^ positionMask n b)).getMsbD i = false) ↔
      8 ≤ p ∧ 8 ≤ a ∧ 8 ≤ b := by
  simp only [BitVec.getMsbD_xor, getMsbD_positionMask, hp, ha, hb, decide_true, Bool.true_and]
  constructor
  · intro h
    refine ⟨Nat.not_lt.mp fun hlt => ?_, Nat.not_lt.mp fun hlt => ?_, Nat.not_lt.mp fun hlt => ?_⟩
    · simpa [hpa, hpb] using h p hlt
    · simpa [hpa.symm, hab] using h a hlt
    · simpa [hpb.symm, hab.symm] using h b hlt
  · rintro ⟨hp8, ha8, hb8⟩ i hi
    simp [show i ≠ p by omega, show i ≠ a by omega, show i ≠ b by omega]

/-- Settles O34: the pair search runs on column p. A pair with p in it would make its other column 0, so
the error and the flips are one or three different positions. -/
theorem decSingleBitErrorIsNotCorrected : Obligations.DecSingleBitErrorIsNotCorrected := by
  intro H hsys hnz d p r
  have hp : p.val < Variant.dec.width := p.isLt
  have hsyn : r.1 = col H.dec p := (syn_enc_xor hsys d _).trans (syn_positionMask H .dec hp)
  have hloc : r.2.1 = locDec H.dec (col H.dec p) := by
    have hne : col H.dec p ≠ 0 := hnz p hp
    rw [← hsyn] at hne ⊢
    exact if_neg hne
  have hdata : r.2.2.2 = d ↔
      ∀ i < 8, (positionMask Variant.dec.width p ^^^ flipLocated .dec 0 r.2.1).getMsbD i = false := by
    rw [← dataBits_enc_xor_eq_iff H .dec d, ← BitVec.xor_assoc, ← flipLocated_eq_xor]
    rfl
  refine ⟨hsyn, hloc, ?_⟩
  rw [hdata, hloc]
  obtain ⟨hL, -⟩ | ⟨a, b, hL, hab, hmatch, -⟩ := locDec_cases H.dec (col H.dec p)
  · have hnone : positionMask Variant.dec.width p ^^^ flipLocated .dec 0 .none =
        positionMask Variant.dec.width p := BitVec.xor_zero
    rw [hL, hnone, getMsbD_mask_data hp]
    simp
  · have hpa : p ≠ a := fun h => by
      rw [h] at hmatch
      exact xor_ne_left (hnz b b.isLt) hmatch
    have hpb : p ≠ b := fun h => by
      rw [h, BitVec.xor_comm] at hmatch
      exact xor_ne_left (hnz a a.isLt) hmatch
    rw [hL, flipLocated_zero_pair, getMsbD_three_masks_data hp a.isLt b.isLt (Fin.val_ne_of_ne hpa)
      (Fin.val_ne_of_ne hpb) (Fin.val_ne_of_ne hab.ne)]
    simp [hpa, hpb]

end Sys2Proof.Machine
end

section
/-! PROOF. The statements of 41_stream.md on whole streams: what the packer has emitted and still holds
is the stream appended to it, what the unpacker has delivered and still holds is the stream pushed into
it, and a stream is cut into words in one way only. -/

namespace Sys2Proof.Machine

open Sys2Proof.Claims

/-! ### What the host reads of PKOUT and PKST (10_state.md R45, R48) -/

/-- A field of a register word, from the value of the word. -/
theorem extractLsb'_eq_of_toNat {w n k : Nat} {x : BitVec w} {y : BitVec n}
    (h : x.toNat / 2 ^ k % 2 ^ n = y.toNat) : x.extractLsb' k n = y := by
  apply BitVec.eq_of_toNat_eq
  rw [BitVec.extractLsb'_toNat, Nat.shiftRight_eq_div_pow, h]

theorem pkoutWord_fields (p : PkOut) :
    (pkoutWord p).extractLsb' 0 8 = p.b0 ∧ (pkoutWord p).extractLsb' 8 8 = p.b1 ∧
      (pkoutWord p).extractLsb' 16 2 = p.nout := by
  have hb0 := p.b0.isLt
  have hb1 := p.b1.isLt
  have hnout := p.nout.isLt
  refine ⟨extractLsb'_eq_of_toNat ?_, extractLsb'_eq_of_toNat ?_, extractLsb'_eq_of_toNat ?_⟩
  all_goals
    rw [toNat_pkoutWord]
    omega

theorem completedBytes_eq (s : State) :
    completedBytes s = [s.pkout.b0, s.pkout.b1].take s.pkout.nout.toNat := by
  obtain ⟨hb0, hb1, hnout⟩ := pkoutWord_fields s.pkout
  rw [← hb0, ← hb1, ← hnout]
  rfl

theorem readUpcnt_eq {s : State} (h : s.uq.length < 32) : readUpcnt s = s.uq.length := by
  have hword : busRead 0x1C s = pkstWord s := rfl
  rw [readUpcnt, hword, BitVec.extractLsb'_toNat, toNat_pkstWord, Nat.shiftRight_eq_div_pow]
  omega

/-! ### Streams -/

/-- An induction over a list that feeds a stream: each step appends the bits of its element. -/
theorem foldl_stream {σ α : Type} {P : List Bool → σ → Prop} {f : σ → α → σ} {g : α → List Bool}
    (hf : ∀ stream a x, P stream a → P (stream ++ g x) (f a x)) (xs : List α) {stream : List Bool}
    {a : σ} (h : P stream a) : P (stream ++ xs.flatMap g) (xs.foldl f a) := by
  induction xs generalizing stream a with
  | nil => simpa using h
  | cons x xs ih => simpa using ih (hf stream a x h)

theorem length_flatMap_bits {L : Nat} (xs : List (BitVec L)) :
    (xs.flatMap bits).length = L * xs.length := by
  induction xs with
  | nil => rfl
  | cons x xs ih =>
    rw [List.flatMap_cons, List.length_append, ih, length_bits, List.length_cons]
    ring

theorem bits_inj {L : Nat} {x y : BitVec L} (h : bits x = bits y) : x = y := by
  rw [← ofNat_val_bits x, h, ofNat_val_bits]

/-- A stream is cut into words and a rest shorter than a word in one way (41_stream.md R180). -/
theorem flatMap_bits_append_inj {L : Nat} {r r' : List Bool} (hr : r.length < L)
    (hr' : r'.length < L) {xs ys : List (BitVec L)}
    (h : xs.flatMap bits ++ r = ys.flatMap bits ++ r') : xs = ys ∧ r = r' := by
  induction xs generalizing ys with
  | nil =>
    cases ys with
    | nil => exact ⟨rfl, h⟩
    | cons y ys =>
      have hlen := congrArg List.length h
      simp at hlen
      omega
  | cons x xs ih =>
    cases ys with
    | nil =>
      have hlen := congrArg List.length h
      simp at hlen
      omega
    | cons y ys =>
      rw [List.flatMap_cons, List.flatMap_cons, List.append_assoc, List.append_assoc] at h
      obtain ⟨hxy, hrest⟩ := List.append_inj h (by rw [length_bits, length_bits])
      obtain ⟨rfl, hrr⟩ := ih hrest
      exact ⟨by rw [bits_inj hxy], hrr⟩

theorem flatMap_byteBits (bs : List Byte) : bs.flatMap byteBits = bs.flatMap bits :=
  List.flatMap_congr fun b _ => (bits_eq_byteBits b).symm

/-- The words of variant v in the low bits of registers, as a stream (41_stream.md R182). -/
theorem flatMap_cwBits (v : Variant) (ws : List (BitVec 16)) :
    ws.flatMap (cwBits v) = (ws.map (BitVec.setWidth v.width)).flatMap bits := by
  rw [List.flatMap_map]
  exact List.flatMap_congr fun w _ => (bits_codeWord v (putCw w .reset)).symm

theorem length_padBits (n : Nat) : (padBits n).length = (8 - n % 8) % 8 := List.length_replicate ..

/-! ### Packing (41_stream.md R181, R188) -/

/-- The host has collected the bytes of the stream but for the residue in PQ. -/
def Packed (stream : List Bool) (a : State × List Byte) : Prop :=
  a.2.flatMap byteBits ++ a.1.pq = stream ∧ a.1.pq.length ≤ 7

/-- The bytes the host reads of PKOUT after a pack, then the residue, are the stream packed. -/
theorem flatMap_completedBytes {stream : List Bool} {t : State} (h : PacksTo stream t.pkout t.pq) :
    (completedBytes t).flatMap byteBits ++ t.pq = stream := by
  rw [completedBytes_eq]
  obtain ⟨-, ⟨rfl, hp⟩ | ⟨x, rfl, hp⟩ | ⟨x, y, rfl, hp⟩⟩ := h <;> simp [hp]

/-- A pack of new bits onto the residue carries them into the stream. -/
theorem Packed.append {stream new : List Bool} {a : State × List Byte} {t : State}
    (h : Packed stream a) (ht : PacksTo (a.1.pq ++ new) t.pkout t.pq) :
    Packed (stream ++ new) (t, a.2 ++ completedBytes t) := by
  obtain ⟨rfl, -⟩ := h
  refine ⟨?_, ht.1⟩
  rw [List.flatMap_append, List.append_assoc, flatMap_completedBytes ht, List.append_assoc]

/-- FLUSH emits what is left of the stream, padded with zero bits to a byte (41_stream.md R188(b)). -/
theorem Packed.flush {stream : List Bool} {a : State × List Byte} (h : Packed stream a)
    (H : Matrices) :
    (a.2 ++ completedBytes (runCommand H .flush a.1)).flatMap byteBits =
      stream ++ padBits stream.length := by
  have hmod : a.1.pq.length % 8 = stream.length % 8 := by
    rw [← h.1, flatMap_byteBits, List.length_append, length_flatMap_bits]
    omega
  have hpad : padBits a.1.pq.length = padBits stream.length := by rw [padBits, hmod, padBits]
  have hpq : (runCommand H .flush a.1).pq = [] := packFlush_pq a.1
  have hpack : PacksTo (a.1.pq ++ padBits a.1.pq.length) (runCommand H .flush a.1).pkout
      (runCommand H .flush a.1).pq := by
    rw [hpq]
    exact packsTo_packFlush h.2
  have hout := (h.append hpack).1
  rw [hpad] at hout
  simpa [hpq] using hout

theorem packed_sclr (H : Matrices) (s : State) : Packed [] (runCommand H .sclr s, []) :=
  ⟨rfl, Nat.zero_le 7⟩

/-- Settles O42: the bytes collected and the empty residue are the bits of the bytes packed. -/
theorem packedDataBytesComeOutUnchanged : Obligations.PackedDataBytesComeOutUnchanged := by
  intro H bs s a
  have hpacked : Packed ([] ++ bs.flatMap bits) a :=
    foldl_stream (fun _ b x h => h.append (packsTo_packdata H (s := putData x b.1) h.2)) bs
      (packed_sclr H s)
  obtain ⟨hstream, hres⟩ := hpacked
  rw [flatMap_byteBits] at hstream
  exact flatMap_bits_append_inj (Nat.lt_succ_of_le hres) (by decide : ([] : List Bool).length < 8)
    (hstream.trans (by simp))

theorem packed_packWords (H : Matrices) (v : Variant) (ws : List (BitVec 16)) {s : State}
    (h : s.pq = []) : Packed (ws.flatMap (cwBits v)) (packWords H v ws s) := by
  have hstart : Packed [] (s, []) := ⟨h, by simp [h]⟩
  refine foldl_stream (fun _ a w ha => ?_) ws hstart
  have hword : bits (codeWord v (putCw w a.1)) = cwBits v w := bits_codeWord v (putCw w a.1)
  rw [← hword]
  exact ha.append (packsTo_packcw H v (s := putCw w a.1) ha.2)

/-- Settles O43: the words appended make the stream, FLUSH pads it, and its length counts the bytes. -/
theorem packedWordsStreamIsTheirConcatenation :
    Obligations.PackedWordsStreamIsTheirConcatenation := by
  intro H v ws s hs a t out
  have hlen : (ws.flatMap (cwBits v)).length = v.width * ws.length := by
    rw [flatMap_cwBits, length_flatMap_bits, List.length_map]
  have hout : out.flatMap byteBits = ws.flatMap (cwBits v) ++ padBits (v.width * ws.length) := by
    rw [← hlen]
    exact (packed_packWords H v ws hs).flush H
  refine ⟨?_, hout⟩
  have hbytes := congrArg List.length hout
  rw [flatMap_byteBits, length_flatMap_bits, List.length_append (as := ws.flatMap _), hlen,
    length_padBits] at hbytes
  omega

/-! ### Unpacking (41_stream.md R185, R186, R188) -/

theorem bits_ofNat_val_of_length {L : Nat} {t : List Bool} (h : t.length = L) :
    bits (BitVec.ofNat L (val t)) = t := by
  subst h
  exact bits_ofNat_val t

/-- The code word a pull of variant v takes from the queue (41_stream.md R186). -/
def pulledWord (v : Variant) (uq : List Bool) : BitVec v.width :=
  BitVec.ofNat v.width (val (pulledBits v.width uq))

/-- From the state s0 on, the words delivered, each shown to the host as `out` of it, and the bits still
queued are the stream pushed; no error was raised and the packer's residue is as it was. -/
def Unpacks {α : Type} {v : Variant} (out : BitVec v.width → α) (s0 : State) (stream : List Bool)
    (a : State × List α) : Prop :=
  (∃ ws : List (BitVec v.width), a.2 = ws.map out ∧ ws.flatMap bits ++ a.1.uq = stream) ∧
    a.1.pq = s0.pq ∧ a.1.errLog = s0.errLog

theorem Unpacks.start {α : Type} {v : Variant} (out : BitVec v.width → α) {s : State}
    (h : s.uq = []) : Unpacks out s [] (s, []) := ⟨⟨[], rfl, h⟩, rfl, rfl⟩

/-- With at most 16 bits queued UPUSH appends the byte in DATA (41_stream.md R185). -/
theorem runCommand_upush (H : Matrices) {s : State} (h : s.uq.length ≤ 16) :
    (runCommand H .upush s).uq = s.uq ++ bits s.data ∧ (runCommand H .upush s).pq = s.pq ∧
      (runCommand H .upush s).errLog = s.errLog := by
  obtain ⟨hfull, -⟩ | ⟨-, hpush⟩ := upushEffect_cases s
  · omega
  · rw [runCommand, hpush]
    exact ⟨rfl, rfl, rfl⟩

/-- On a nonempty queue UPULL.V delivers a word (41_stream.md R186). -/
theorem runCommand_upull (H : Matrices) (v : Variant) {s : State} (h : s.uq ≠ []) :
    (runCommand H (.upull v) s).uq = s.uq.drop v.width ∧
      (runCommand H (.upull v) s).cw = zextCodeWord v (pulledWord v s.uq) ∧
      (runCommand H (.upull v) s).pq = s.pq ∧ (runCommand H (.upull v) s).errLog = s.errLog := by
  obtain ⟨hempty, -⟩ | ⟨-, hpull⟩ := upullEffect_cases v s
  · exact absurd hempty h
  · rw [runCommand, hpull, ← queueAfterPull_eq_drop]
    exact ⟨rfl, rfl, rfl, rfl⟩

/-- Pushing a byte while no whole word is queued extends the stream. -/
theorem Unpacks.upush {α : Type} {v : Variant} {out : BitVec v.width → α} {s0 : State}
    {stream : List Bool} {a : State × List α} (h : Unpacks out s0 stream a)
    (hshort : a.1.uq.length < v.width) (H : Matrices) (b : Byte) :
    Unpacks out s0 (stream ++ bits b) (runCommand H .upush (putData b a.1), a.2) ∧
      (runCommand H .upush (putData b a.1)).uq.length < v.width + 8 := by
  obtain ⟨⟨ws, hout, hstream⟩, hpq, hlog⟩ := h
  have hwidth := width_le v
  have hfits : a.1.uq.length ≤ 16 := by omega
  obtain ⟨huq', hpq', hlog'⟩ := runCommand_upush H (s := putData b a.1) hfits
  have huq : (runCommand H .upush (putData b a.1)).uq = a.1.uq ++ bits b := huq'
  refine ⟨⟨⟨ws, hout, ?_⟩, hpq'.trans hpq, hlog'.trans hlog⟩, ?_⟩
  · rw [← hstream, List.append_assoc, huq]
  · rw [huq, List.length_append, length_bits]
    omega

/-- A round of a pull loop: it delivers the first word queued, and changes neither the packer's residue
nor the record. -/
def PullsWord {α : Type} {v : Variant} (out : BitVec v.width → α)
    (pull : State × List α → State × List α) (a : State × List α) : Prop :=
  (pull a).2 = a.2 ++ [out (pulledWord v a.1.uq)] ∧ (pull a).1.uq = a.1.uq.drop v.width ∧
    (pull a).1.pq = a.1.pq ∧ (pull a).1.errLog = a.1.errLog

theorem Unpacks.pull {α : Type} {v : Variant} {out : BitVec v.width → α} {s0 : State}
    {stream : List Bool} {a : State × List α} {pull : State × List α → State × List α}
    (h : Unpacks out s0 stream a) (hfull : v.width ≤ a.1.uq.length) (hpull : PullsWord out pull a) :
    Unpacks out s0 stream (pull a) := by
  obtain ⟨⟨ws, hout, hstream⟩, hpq, hlog⟩ := h
  obtain ⟨hout', huq', hpq', hlog'⟩ := hpull
  have hword : bits (pulledWord v a.1.uq) = a.1.uq.take v.width := by
    rw [pulledWord, pulledBits_full hfull]
    exact bits_ofNat_val_of_length (List.length_take_of_le hfull)
  refine ⟨⟨ws ++ [pulledWord v a.1.uq], ?_, ?_⟩, hpq'.trans hpq, hlog'.trans hlog⟩
  · rw [hout', hout, List.map_append]
    rfl
  · rw [← hstream, huq', List.flatMap_append, List.flatMap_singleton, hword, List.append_assoc,
      List.take_append_drop]

/-- Pulling if a word is queued leaves less than a word. -/
theorem Unpacks.pull_if {α : Type} {v : Variant} {out : BitVec v.width → α} {s0 : State}
    {stream : List Bool} {a : State × List α} {pull : State × List α → State × List α}
    (h : Unpacks out s0 stream a) (hlen : a.1.uq.length < v.width + 8)
    (hpull : v.width ≤ a.1.uq.length → PullsWord out pull a) {r : State × List α}
    (hr : r = if v.width ≤ a.1.uq.length then pull a else a) :
    Unpacks out s0 stream r ∧ r.1.uq.length < v.width := by
  have hwidth := width_eq_or v
  obtain hshort | hfull := Nat.lt_or_ge a.1.uq.length v.width
  · rw [hr, if_neg (Nat.not_le.mpr hshort)]
    exact ⟨h, hshort⟩
  · have hword := hpull hfull
    rw [hr, if_pos hfull]
    refine ⟨h.pull hfull hword, ?_⟩
    obtain ⟨-, huq, -⟩ := hword
    rw [huq, List.length_drop]
    omega

/-! ### The pull loop of the packer laws (41_stream.md R188(c)) -/

/-- A round of `pullWords`. -/
def pullWordRound (H : Matrices) (v : Variant) (a : State × List (BitVec 16)) :
    State × List (BitVec 16) :=
  (runCommand H (.upull v) a.1, a.2 ++ [(runCommand H (.upull v) a.1).cw])

theorem pullsWord_pullWordRound (H : Matrices) (v : Variant) {a : State × List (BitVec 16)}
    (hfull : v.width ≤ a.1.uq.length) :
    PullsWord (zextCodeWord v) (pullWordRound H v) a := by
  have hpos := width_pos v
  obtain ⟨huq, hcw, hpq, hlog⟩ :=
    runCommand_upull H v (List.ne_nil_of_length_pos (hpos.trans_le hfull))
  exact ⟨congrArg (a.2 ++ [·]) hcw, huq, hpq, hlog⟩

/-- With fewer than two words queued the loop makes at most one round. -/
theorem pullWords_eq (H : Matrices) (v : Variant) {a : State × List (BitVec 16)}
    (h : a.1.uq.length < v.width + 8) :
    pullWords H v 2 a = if v.width ≤ a.1.uq.length then pullWordRound H v a else a := by
  rw [pullWords]
  split
  · rename_i hfull
    obtain ⟨-, huq, -⟩ := pullsWord_pullWordRound H v hfull
    change pullWords H v 1 (pullWordRound H v a) = _
    have hwidth := width_eq_or v
    rw [pullWords, huq, List.length_drop, if_neg (by omega)]
  · rfl

theorem unpacks_unpackWords (H : Matrices) (v : Variant) (bs : List Byte) {s : State}
    (h : s.uq = []) :
    Unpacks (zextCodeWord v) s (bs.flatMap bits) (unpackWords H v bs s) ∧
      (unpackWords H v bs s).1.uq.length < v.width := by
  have hstart : ((s, []) : State × List (BitVec 16)).1.uq.length < v.width := by
    rw [h]
    exact width_pos v
  refine foldl_stream
    (P := fun stream a => Unpacks (zextCodeWord v) s stream a ∧ a.1.uq.length < v.width)
    (fun stream a b ha => ?_) bs ⟨Unpacks.start _ h, hstart⟩
  obtain ⟨hpush, hlen⟩ := ha.1.upush ha.2 H b
  exact hpush.pull_if hlen (pullsWord_pullWordRound H v) (pullWords_eq H v hlen)

/-- Settles O44: the words delivered and the bits still queued cut the stream as the words pushed and
the pad do. -/
theorem unpackedStreamReturnsTheWords : Obligations.UnpackedStreamReturnsTheWords := by
  intro H v ws bs s hs hstream
  have hpad : (padBits (v.width * ws.length)).length < v.width := by
    rw [length_padBits, Variant.width]
    omega
  obtain ⟨⟨⟨ws', hout, hcut⟩, -, hlog⟩, hshort⟩ := unpacks_unpackWords H v bs hs
  rw [← flatMap_byteBits, hstream, flatMap_cwBits] at hcut
  obtain ⟨rfl, huq⟩ := flatMap_bits_append_inj hshort hpad hcut
  refine ⟨?_, huq, hlog⟩
  rw [hout, List.map_map]
  rfl

/-! ### The reference framer (41_stream.md R189 to R191) -/

/-- EncodeFile emits the code words of the file's bytes and the pad (41_stream.md R189). -/
theorem flatMap_encodeFile (H : Matrices) (v : Variant) (B : List Byte) (s : State) :
    (encodeFile H v B s).2.flatMap byteBits =
      (B.map (enc H v)).flatMap bits ++ padBits (v.width * B.length) := by
  have hpacked : Packed ((B.map (enc H v)).flatMap bits)
      (B.foldl (encodeByte H v) (runCommand H .sclr s, [])) := by
    rw [List.flatMap_map]
    refine foldl_stream (fun _ a b ha => ?_) B (packed_sclr H s)
    have hword : codeWord v (runCommand H (.enc v) (putData b a.1)) = enc H v b :=
      setWidth_setWidth_self (width_le v) _
    rw [← hword]
    exact ha.append (packsTo_packcw H v (s := runCommand H (.enc v) (putData b a.1)) ha.2)
  have hout := hpacked.flush H
  rwa [length_flatMap_bits, List.length_map] at hout

/-- A byte packed onto an empty residue comes out at once (41_stream.md R188(a)). -/
theorem packAppend_byte_of_empty {s : State} (h : s.pq = []) (b : Byte) :
    packAppend (bits b) s = { s with pkout := { b0 := b, b1 := 0, nout := 1 }, pq := [] } := by
  have hlen := length_bits b
  have hb : BitVec.ofNat 8 (val ((bits b).take 8)) = b := by
    rw [List.take_of_length_le hlen.le, ofNat_val_bits]
  simp [packAppend, h, hb]

/-- The data the decoder makes of a code word (40_codec.md R140). -/
def decodedData (H : Matrices) (v : Variant) (c : BitVec v.width) : Byte := (decodeWord H v c).2.2.2

/-- A round of DecodeFile on a nonempty queue delivers the decoded data of a word (41_stream.md R190). -/
theorem pullsWord_pullOne (H : Matrices) (v : Variant) {a : State × List Byte} (hpq : a.1.pq = [])
    (h : a.1.uq ≠ []) : PullsWord (decodedData H v) (pullOne H v) a := by
  obtain ⟨huq, hcw, hpq', hlog⟩ := runCommand_upull H v h
  generalize ht : runCommand H (.upull v) a.1 = t at huq hcw hpq' hlog
  have hword : codeWord v t = pulledWord v a.1.uq := by
    rw [codeWord, hcw]
    exact setWidth_setWidth_self (width_le v) _
  have hpack := packAppend_byte_of_empty (s := runCommand H (.decode v) t) (hpq'.trans hpq)
    (runCommand H (.decode v) t).data
  have hbyte : (runCommand H .packdata (runCommand H (.decode v) t)).pkout.b0 =
      decodedData H v (pulledWord v a.1.uq) := by
    rw [← hword]
    exact congrArg (·.pkout.b0) hpack
  have hempty : (runCommand H .packdata (runCommand H (.decode v) t)).pq = a.1.pq := by
    rw [hpq]
    exact congrArg State.pq hpack
  simp only [PullsWord, pullOne, ht]
  refine ⟨?_, huq, hempty, hlog⟩
  rw [← hbyte, ← (pkoutWord_fields _).1]
  rfl

/-- With fewer than two words queued the loop makes at most one round, well within its bound. -/
theorem pullWhileFull_eq (H : Matrices) (v : Variant) {a : State × List Byte} (hpq : a.1.pq = [])
    (h : a.1.uq.length < v.width + 8) :
    pullWhileFull H v 24 a = if v.width ≤ a.1.uq.length then pullOne H v a else a := by
  have hwidth := width_eq_or v
  rw [pullWhileFull, readUpcnt_eq (by omega)]
  split
  · rename_i hfull
    obtain ⟨-, huq, -⟩ := pullsWord_pullOne H v hpq (List.ne_nil_of_length_pos (by omega))
    rw [pullWhileFull, readUpcnt_eq (by rw [huq, List.length_drop]; omega), huq, List.length_drop,
      if_neg (by omega)]
  · rfl

/-- The loop of DecodeFile over any bytes (41_stream.md R190). -/
theorem unpacks_decodeByte (H : Matrices) (v : Variant) (E : List Byte) (s : State) :
    Unpacks (decodedData H v) (runCommand H .sclr s) (E.flatMap bits)
        (E.foldl (decodeByte H v) (runCommand H .sclr s, [])) ∧
      (E.foldl (decodeByte H v) (runCommand H .sclr s, [])).1.uq.length < v.width := by
  refine foldl_stream
    (P := fun stream a =>
      Unpacks (decodedData H v) (runCommand H .sclr s) stream a ∧ a.1.uq.length < v.width)
    (fun stream a b ha => ?_) E ⟨Unpacks.start _ rfl, width_pos v⟩
  obtain ⟨hpush, hlen⟩ := ha.1.upush ha.2 H b
  have hpq := hpush.2.1
  have hpos := width_pos v
  exact hpush.pull_if hlen
    (fun hfull => pullsWord_pullOne H v hpq (List.ne_nil_of_length_pos (hpos.trans_le hfull)))
    (pullWhileFull_eq H v hpq hlen)

/-- The end of DecodeFile, from the state and the bytes its loop leaves: one more word if bits are left
and they are not a pad to drop (41_stream.md R190). -/
theorem decodeFile_eq (H : Matrices) (v : Variant) (dropPad : Bool) (E : List Byte) (s : State) :
    ∃ a : State × List Byte, Unpacks (decodedData H v) (runCommand H .sclr s) (E.flatMap bits) a ∧
      a.1.uq.length < v.width ∧
      decodeFile H v dropPad E s =
        if 0 < a.1.uq.length ∧ ¬(dropPad = true ∧ a.1.uq.length < 8) then pullOne H v a else a := by
  obtain ⟨hloop, hshort⟩ := unpacks_decodeByte H v E s
  have hwidth := width_le v
  refine ⟨_, hloop, hshort, ?_⟩
  rw [decodeFile, readUpcnt_eq (by omega)]

/-- Settles O46: the loop raises no error, and the last pull is on a nonempty queue. -/
theorem decodeFileRaisesNoCommandError : Obligations.DecodeFileRaisesNoCommandError := by
  intro H v dropPad E s
  obtain ⟨a, ⟨-, hpq, hlog⟩, -, hfile⟩ := decodeFile_eq H v dropPad E s
  rw [hfile]
  split
  · rename_i hleft
    obtain ⟨-, -, -, hlog'⟩ := pullsWord_pullOne H v hpq (List.ne_nil_of_length_pos hleft.1)
    exact hlog'.trans hlog
  · exact hlog

/-- Under WF_SYS every byte survives ENC.V and DECODE.V (40_codec.md R141(c)). -/
theorem decodedData_enc {H : Matrices} {v : Variant} (hsys : WfSys H v) (b : Byte) :
    decodedData H v (enc H v b) = b := by
  rw [decodedData, cleanCodeWordRoundTrips H v hsys b]

/-- DecodeFile of an encoded file, before its last pull: the file, with the pad still queued. -/
theorem decodeFile_encodeFile_eq {H : Matrices} {v : Variant} (hsys : WfSys H v) (dropPad : Bool)
    (B : List Byte) (s s' : State) :
    ∃ a : State × List Byte, a.2 = B ∧ a.1.uq = padBits (v.width * B.length) ∧ a.1.pq = [] ∧
      decodeFile H v dropPad (encodeFile H v B s).2 s' =
        if 0 < a.1.uq.length ∧ ¬(dropPad = true ∧ a.1.uq.length < 8) then pullOne H v a else a := by
  obtain ⟨a, ⟨⟨ws, hout, hstream⟩, hpq, -⟩, hshort, hfile⟩ :=
    decodeFile_eq H v dropPad (encodeFile H v B s).2 s'
  have hpad : (padBits (v.width * B.length)).length < v.width := by
    rw [length_padBits, Variant.width]
    omega
  rw [← flatMap_byteBits, flatMap_encodeFile] at hstream
  obtain ⟨rfl, huq⟩ := flatMap_bits_append_inj hshort hpad hstream
  refine ⟨a, ?_, huq, hpq, hfile⟩
  rw [hout, List.map_map]
  exact List.map_id'' (decodedData_enc hsys) B

theorem val_zeros (n : Nat) : val (zeros n) = 0 := by
  induction n with
  | zero => rfl
  | succ n ih => rw [zeros, List.replicate_succ', val_append_one, ← zeros, ih]; rfl

/-- A pull of nothing but pad bits delivers the zero word (41_stream.md R191). -/
theorem pulledWord_zeros (v : Variant) {n : Nat} (hn : n < v.width) : pulledWord v (zeros n) = 0 := by
  have hzeros : pulledBits v.width (zeros n) = zeros v.width := by
    rw [pulledBits_short (by rwa [length_zeros]), length_zeros, zeros, zeros, zeros,
      List.replicate_append_replicate, Nat.add_sub_cancel' hn.le]
  rw [pulledWord, hzeros, val_zeros]
  rfl

/-- Settles O45: only an odd SEC file has a pad, of four bits; pulled, it is a zero word and decodes to
0x00. -/
theorem fileRoundTrip : Obligations.FileRoundTrip := by
  intro H v dropPad B s s' hsys
  obtain ⟨a, rfl, huq, hpq, hfile⟩ := decodeFile_encodeFile_eq hsys dropPad B s s'
  rw [hfile]
  have hlen : a.1.uq.length = if v = .sec ∧ a.2.length % 2 = 1 then 4 else 0 := by
    rw [huq, length_padBits]
    cases v with
    | sec =>
      rw [width_sec]
      simp
      split <;> omega
    | dec =>
      rw [width_dec]
      simp
      omega
  by_cases hodd : v = .sec ∧ a.2.length % 2 = 1
  · rw [if_pos hodd] at hlen
    cases dropPad with
    | true => simp [hlen]
    | false =>
      have hzeros : a.1.uq = zeros 4 := by
        rw [← hlen, huq, length_padBits]
        rfl
      have hword : pulledWord v a.1.uq = 0 := by
        rw [hzeros]
        exact pulledWord_zeros v (Nat.lt_add_right _ (by decide))
      obtain ⟨hout, -⟩ := pullsWord_pullOne H v hpq (List.ne_nil_of_length_pos (by omega))
      rw [hword, decodedData, decodeWord_zero] at hout
      rw [if_pos (by simp [hlen]), if_pos ⟨hodd.1, hodd.2, rfl⟩, hout]
  · rw [if_neg hodd] at hlen
    rw [if_neg (by omega), if_neg (fun h => hodd ⟨h.1, h.2.1⟩)]

end Sys2Proof.Machine
end
